-- ==== Sys2Proof/Word.lean ====
section
/-! DEFINITION. The words on the block's ports, and the two bundles of ports of the CORE wrapper.

The block has no registers and no memory (R20, R22, R27): every value stands on a port of its own width, bits numbered
from 0 at the least significant end (R11, R41). -/

namespace Sys2Proof

/-- A byte. The block has no byte interface (R41); bytes occur only in the host's image of the input ports. -/
abbrev Byte := BitVec 8

/-- A PackedFloat16: a 16-bit pattern (R60). -/
abbrev Packed := BitVec 16

/-- The unsigned integer on the detector's and the encoder's input port, 31 bits (R70, R71, R120). -/
abbrev IntWord := BitVec 31

/-- The two-bit operation select of the CORE wrapper (R76). -/
abbrev OpSelect := BitVec 2

/-- The two-bit error code of an `err` output (R74). -/
abbrev ErrCode := BitVec 2

/-- The input ports of the CORE wrapper (R76). -/
structure Inputs where
  /-- `op[1:0]`, the operation select -/
  op : OpSelect
  /-- `v[30:0]`, the integer that MSB scans and ENC encodes -/
  v : IntWord
  /-- `a[15:0]`, the operand of DEC and the first operand of MUL -/
  a : Packed
  /-- `b[15:0]`, the second operand of MUL -/
  b : Packed
  deriving DecidableEq, Repr, Inhabited

/-- The output ports of the CORE wrapper (R76). -/
structure Outputs where
  /-- `idx[4:0]`, the detector's index (R70) -/
  idx : BitVec 5
  /-- `res[15:0]`, the packed result of ENC and MUL (R71, R73) -/
  res : Packed
  /-- `dec_sig[10:0]`, the decoder's unsigned significand (R72) -/
  decSig : BitVec 11
  /-- `dec_exp[5:0]`, the decoder's two's-complement power of two (R72) -/
  decExp : BitVec 6
  /-- `err[1:0]`, the selected sub-block's error code (R74, R76) -/
  err : ErrCode
  deriving DecidableEq, Repr, Inhabited

end Sys2Proof
end

