-- ==== Sys2Proof/Config.lean ====
section
/-! DEFINITION. What is fixed for the machine: the format parameters of R9, and the free values that stand on an output
pin to which the spec gives no value (R75, R77; notes/assumptions/4.md) or for the number of a pattern that has none (R62;
notes/assumptions/13.md). -/

namespace Sys2Proof.Config

/-- `mantissaLength`, `M` (R9). -/
def mantissaLength : Nat := 10

/-- `exponentLength`, `E` (R9). -/
def exponentLength : Nat := 5

/-- `BIAS = 2^(E-1) - 1` (R9, R60). -/
def bias : Nat := 2 ^ (exponentLength - 1) - 1

/-- `EMAX_ENC`, the largest exponent field that `encode` may produce (R9, R122). -/
def encoderMaxExponent : Nat := 30

/-- The largest exponent field there is, the upper end of the multiplier's range `[0, 31]` (R9, R168). -/
def maxExponentField : Int := 31

/-- The width W of the detector in the multiplier, `2(M+1)` (R9, R100). In the encoder and the standalone
MSB it is the 31 of `IntWord`. -/
def productWidth : Nat := 2 * (mantissaLength + 1)

/-- A free value of the pins `idx` (R75, R77): nothing is known of it. The first argument is the number of the
evaluation, the second the inputs it settles for. -/
opaque freeIdx : Nat → Inputs → BitVec 5

/-- A free value of the pins `res` (R75, R77). -/
opaque freeRes : Nat → Inputs → Packed

/-- A free value of the pins `dec_sig` (R75, R77). -/
opaque freeDecSig : Nat → Inputs → BitVec 11

/-- A free value of the pins `dec_exp` (R75, R77). -/
opaque freeDecExp : Nat → Inputs → BitVec 6

/-- A free value for `value(p)` of a pattern with bit 15 set, which the spec gives none (R62, R63;
notes/assumptions/13.md): nothing is known of it. -/
opaque freeValue : Packed → ℚ

end Sys2Proof.Config
end

