-- ==== Sys2Proof/Syntax.lean ====
section
/-! DEFINITION. The four operations (R76), one constructor per row of the opcode table, with the whole port values they
read as operands (R81); and the line notation of R84. -/

namespace Sys2Proof

/-- The operations of the CORE wrapper with the operands each reads (R76). -/
inductive Instr where
  /-- `MSB v`: the index of the highest set bit (R101) -/
  | msb (v : IntWord)
  /-- `ENC value`: pack a non-negative integer (R121) -/
  | enc (value : IntWord)
  /-- `DEC p`: unpack a PackedFloat16 (R141) -/
  | dec (p : Packed)
  /-- `MUL a, b`: multiply two PackedFloat16 values (R161) -/
  | mul (a b : Packed)
  deriving DecidableEq, Repr

/-- A name of the line notation (R84). Names are numerals here (notes/assumptions/9.md). -/
abbrev Name := Nat

/-- A packed operand of a line: a 16-bit literal, or a name bound by an earlier line (R84). -/
inductive Operand where
  | literal (p : Packed)
  | name (n : Name)
  deriving DecidableEq, Repr

/-- The right side of a line (R84). An integer literal is unbounded as text; R84 asks that it be below `2^31`. -/
inductive LineOp where
  | msb (n : Nat)
  | enc (n : Nat)
  | dec (p : Operand)
  | mul (a b : Operand)
  deriving DecidableEq, Repr

/-- One line `<name> = <operation> <operands>` (R84). -/
structure Line where
  name : Name
  rhs : LineOp
  deriving DecidableEq, Repr

/-- A program is a list of lines evaluated in order; no branches, loops or memory (R84). -/
abbrev Program := List Line

end Sys2Proof
end

