-- ==== Sys2Proof/WellFormed.lean ====
section
/-! DEFINITION. The admitted inputs (R13, R62) as a check on operations, and the form of a program of the line notation
(R84). -/

namespace Sys2Proof

/-- A packed operand is admitted when its bit 15 is 0 (R62, R140, R160). -/
def Packed.admitted (p : Packed) : Bool := !p.getLsbD 15

/-- An operation is well formed when every packed operand is admitted. Every 31-bit integer is admitted: 0 has an error
outcome in MSB, and values from 65536 up have one in ENC, but both have a meaning (R102, R120, R122). -/
def Instr.wf : Instr → Bool
  | .msb _ => true
  | .enc _ => true
  | .dec p => Packed.admitted p
  | .mul a b => Packed.admitted a && Packed.admitted b

/-- A packed operand of a line: any 16-bit literal, or a name that an earlier line bound to a packed result (R84). A literal
with bit 15 set is well formed as text; its line is then refused (95_test_vectors.md, P5 line 4). -/
def Operand.wf (packedNames : List Name) : Operand → Bool
  | .literal _ => true
  | .name n => packedNames.contains n

/-- The right side of a line: integer literals below `2^31`, well-formed operands (R84). -/
def LineOp.wf (packedNames : List Name) : LineOp → Bool
  | .msb n => decide (n < 2 ^ 31)
  | .enc n => decide (n < 2 ^ 31)
  | .dec p => p.wf packedNames
  | .mul a b => a.wf packedNames && b.wf packedNames

/-- Whether the result of a line is a PackedFloat16 (R76: `res` is defined by ENC and MUL). -/
def LineOp.packs : LineOp → Bool
  | .msb _ => false
  | .enc _ => true
  | .dec _ => false
  | .mul _ _ => true

/-- The lines from one on, after the names `bound`, of which `packedNames` stand for packed results: each right side well
formed, each name bound once (R84). -/
def Program.wfFrom (bound packedNames : List Name) : Program → Bool
  | [] => true
  | l :: rest =>
    l.rhs.wf packedNames && !bound.contains l.name &&
      Program.wfFrom (l.name :: bound) (if l.rhs.packs then l.name :: packedNames else packedNames) rest

/-- The form R84 asks of a program, which starts with no name bound. -/
def Program.wf (p : Program) : Bool := Program.wfFrom [] [] p

end Sys2Proof
end

