-- ==== Sys2Proof/Decode.lean ====
section
/-! DEFINITION. Reading an operation from the wrapper's input ports, and driving the ports for an operation (R76 to R78).

There is no instruction word (R81). What selects an operation is `op`; what it works on stands on the ports it reads. For
the host's numbering of bits the input ports are laid side by side in one 65-bit word, `op` at the bottom as the opcode
table numbers it, then `v`, `a`, `b` (notes/assumptions/2.md). -/

namespace Sys2Proof

/-- The value of `op` that selects the detector (R76). -/
def opMsb : OpSelect := 0b00#2
/-- The value of `op` that selects the encoder (R76). -/
def opEnc : OpSelect := 0b01#2
/-- The value of `op` that selects the decoder (R76). -/
def opDec : OpSelect := 0b10#2
/-- The value of `op` that selects the multiplier (R76). -/
def opMul : OpSelect := 0b11#2

/-- The operation that the input ports present: `op` selects it, and it takes the ports in the column 'inputs read' of
R76. Every value of `op` is assigned (R78), so there is nothing to reject. -/
def decode (x : Inputs) : Instr :=
  if x.op = opMsb then .msb x.v
  else if x.op = opEnc then .enc x.v
  else if x.op = opDec then .dec x.a
  else .mul x.a x.b

/-- The value of `op` of an operation (R76). -/
def Instr.opSelect : Instr → OpSelect
  | .msb _ => opMsb
  | .enc _ => opEnc
  | .dec _ => opDec
  | .mul _ _ => opMul

/-- The input ports `x` after an operation is presented on them: `op` and the ports that the operation reads are driven,
the others keep what they had (R76, R77). -/
def encodeOnto (i : Instr) (x : Inputs) : Inputs :=
  match i with
  | .msb v => { x with op := opMsb, v := v }
  | .enc value => { x with op := opEnc, v := value }
  | .dec p => { x with op := opDec, a := p }
  | .mul a b => { x with op := opMul, a := a, b := b }

/-- An operation on input ports whose unread inputs are 0 (they may hold anything, R77). -/
def encode (i : Instr) : Inputs := encodeOnto i { op := 0, v := 0, a := 0, b := 0 }

/-- The input ports as one word: `op` at bits 1..0, `v` at 32..2, `a` at 48..33, `b` at 64..49. -/
def Inputs.toWord (x : Inputs) : BitVec 65 := x.b ++ x.a ++ x.v ++ x.op

/-- The input ports read from that word. -/
def Inputs.ofWord (w : BitVec 65) : Inputs where
  op := w.extractLsb' 0 2
  v := w.extractLsb' 2 31
  a := w.extractLsb' 33 16
  b := w.extractLsb' 49 16

/-- Why an image of bytes is not an image of the input ports. -/
inductive DecodeError where
  /-- the image is not nine bytes long (every port has a fixed width, R83) -/
  | wrongLength
  /-- a bit above bit 64 is set: there is no port for it (R78) -/
  | beyondInputs
  deriving DecidableEq, Repr

/-- The number whose bytes are `bs`, the first the least significant. -/
def bytesToNat : List Byte → Nat
  | [] => 0
  | b :: bs => b.toNat + 256 * bytesToNat bs

/-- The first `n` bytes of a number, the least significant first. -/
def natToBytes : Nat → Nat → List Byte
  | 0, _ => []
  | n + 1, x => BitVec.ofNat 8 x :: natToBytes n (x / 256)

/-- The bytes that an image of the input ports takes: 65 bits in nine bytes. -/
def imageBytes : Nat := 9

/-- Reads an operation from an image of the input ports. Total on any bytes. -/
def decodeBytes (bs : List Byte) : Except DecodeError Instr :=
  if bs.length ≠ imageBytes then .error .wrongLength
  else if 2 ^ 65 ≤ bytesToNat bs then .error .beyondInputs
  else .ok (decode (Inputs.ofWord (BitVec.ofNat 65 (bytesToNat bs))))

/-- The image of an operation: its input ports, unread ones 0, as nine bytes. -/
def encodeBytes (i : Instr) : List Byte := natToBytes imageBytes (encode i).toWord.toNat

/-- The number that the host's `nbits` bits `w` stand for: every bit above `nbits` is 0. -/
def tableNumber (nbits w : Nat) : Nat := w % 2 ^ nbits

/-- The operation that the decoder reads from an opcode-table word whose bits are `w`. -/
def decodeTableWord (nbits w : Nat) : Option Instr :=
  match decodeBytes (natToBytes (max imageBytes ((nbits + 7) / 8)) (tableNumber nbits w)) with
  | .ok i => some i
  | .error _ => none

end Sys2Proof
end

