-- ==== Sys2Proof/Machine/State.lean ====
section
/-! DEFINITION. The state: what stands on the CORE wrapper's ports, and the model's own counter of evaluations; the
outcomes of an operation; the reasons a run can stop; the state the model starts from.

The block itself holds no state (R20, R29): the ports are the only observable quantities (10_state.md), and each step
settles the outputs for the inputs that stand on them (notes/assumptions/1.md). -/

namespace Sys2Proof.Machine

/-- Why a run stops with a fault. No operation raises one. -/
inductive Fault where
  /-- The reserved code `0b11` was read on `err` (R74). Raised by `State.readOutcome` only, for a state that no operation
  leaves: a model that sees the code from a hardware treats it as a fault (93_implementation_defined.md, row 15). Safe. -/
  | errReserved
  deriving DecidableEq, Repr

/-- Why the model gives no meaning. -/
inductive Refusal where
  /-- An instruction of the table that has no meaning in the model. Raised by no arm. Safe. -/
  | notModelled (mnemonic : String)
  /-- `refused(bit15_set)`: a packed operand has bit 15 set, an input that the spec gives no meaning (R62, R140, R160).
  Raised by DEC and MUL. Safe: no claim can be proved about such an operand. -/
  | bit15Set
  /-- `refused(value_too_wide)`: an integer literal of `2^31` or more, which no port can carry (R120, R204). Raised by
  the line notation, whose literals are unbounded. Safe. -/
  | valueTooWide
  /-- A line that R84 does not allow: a name bound twice, or a packed operand that is no earlier packed result. Raised
  by the line notation only. Safe. -/
  | illFormedLine
  deriving DecidableEq, Repr

/-- The two error kinds (R200). -/
inductive ErrorKind where
  | preconditionError
  | rangeError
  deriving DecidableEq, Repr

/-- The outcome of an operation: a result, an error with no result, or no meaning (R13). -/
inductive OpOutcome (α : Type) where
  | ok (result : α)
  | err (kind : ErrorKind)
  | refused (reason : Refusal)
  deriving DecidableEq, Repr

/-- The result on the outputs that an operation defines (R76, column 'outputs defined'). -/
inductive Result where
  /-- `idx`, of MSB -/
  | index (idx : BitVec 5)
  /-- `res`, of ENC and MUL -/
  | packed (p : Packed)
  /-- `dec_sig` and `dec_exp`, of DEC -/
  | real (sig : BitVec 11) (exp : BitVec 6)
  deriving DecidableEq, Repr

/-- The ports of the CORE wrapper (R76) and the number of the next evaluation. -/
structure State where
  /-- the input ports -/
  inputs : Inputs
  /-- the output ports -/
  outputs : Outputs
  /-- the model's own counter: how many evaluations there were, so that each takes fresh free values -/
  evaluations : Nat
  deriving DecidableEq, Repr

/-- The model's start. The spec resets nothing (R231, R232). DESIGN CHOICE (notes/assumptions/5.md): the inputs are 0,
and so are the result pins, which have no specified value; `err` is what R231 gives for those inputs, the code of
PreconditionError, since they present MSB 0 (R102). -/
def State.reset : State where
  inputs := { op := 0, v := 0, a := 0, b := 0 }
  outputs := { idx := 0, res := 0, decSig := 0, decExp := 0, err := 0b01#2 }
  evaluations := 0

end Sys2Proof.Machine
end

