-- ==== Sys2Proof/Machine/Flags.lean ====
section
/-! DEFINITION. The status an operation produces. There is no flag register (R24): the only status is the error code on
`err`, a function of the current inputs, not sticky (R74). -/

namespace Sys2Proof.Machine

/-- The code of OK (R74). -/
def errOk : ErrCode := 0b00#2

/-- The code of an error kind (R74, R200). -/
def ErrorKind.code : ErrorKind → ErrCode
  | .preconditionError => 0b01#2
  | .rangeError => 0b10#2

end Sys2Proof.Machine
end

