-- ==== Sys2Proof/Machine/Operands.lean ====
section
/-! DEFINITION. The fields of a PackedFloat16 and how one is composed (R60, R61, R79), and the check of bit 15 (R62). -/

namespace Sys2Proof.Machine

/-- Bit 15, reserved (R61). -/
def bit15 (p : Packed) : Bool := p.getLsbD 15

/-- `exponentField = p[14:10]` (R61). -/
def exponentField (p : Packed) : BitVec 5 := p.extractLsb' 10 5

/-- `mantissaField = p[9:0]` (R61). -/
def mantissaField (p : Packed) : BitVec 10 := p.extractLsb' 0 10

/-- `{0b0, e[4:0], m[9:0]}` (R61). Bit 15 of a composed pattern is 0 (R62). -/
def compose (e : BitVec 5) (m : BitVec 10) : Packed := 0#1 ++ e ++ m

/-- The significand with the hidden bit restored, `(1 << M) | mantissaField`, whatever the exponent field (R79). -/
def significand (p : Packed) : Nat := (1 <<< Config.mantissaLength) ||| (mantissaField p).toNat

/-- Goes on with an admitted operand; refuses one with bit 15 set (R62, R205). -/
def requireBit15Clear {α : Type} (p : Packed) (k : OpOutcome α) : OpOutcome α :=
  if bit15 p then .refused .bit15Set else k

end Sys2Proof.Machine
end

