-- ==== Sys2Proof/Machine/Ops.lean ====
section
/-! DEFINITION. The operations that all four meanings share: presenting an operation on the inputs, delivering an outcome
on the outputs, reporting an error, and reading the outcome off the pins. -/

namespace Sys2Proof.Machine

/-- Uses a sub-block inside another: its result is passed on, its error or refusal is the outcome. -/
def OpOutcome.bind {α β : Type} (r : OpOutcome α) (f : α → OpOutcome β) : OpOutcome β :=
  match r with
  | .ok x => f x
  | .err k => .err k
  | .refused why => .refused why

/-- The outcome with its result put in another form. -/
def OpOutcome.map {α β : Type} (f : α → β) (r : OpOutcome α) : OpOutcome β := r.bind (fun x => .ok (f x))

/-- The state whose input ports present the operation (R76); inputs the operation does not read keep their values. -/
def State.present (i : Instr) (s : State) : State := { s with inputs := encodeOnto i s.inputs }

/-- Outputs with a given error code and no specified value on any result pin: every one is a free value (R75, R77). -/
def unspecifiedOutputs (s : State) (e : ErrCode) : Outputs where
  idx := Config.freeIdx s.evaluations s.inputs
  res := Config.freeRes s.evaluations s.inputs
  decSig := Config.freeDecSig s.evaluations s.inputs
  decExp := Config.freeDecExp s.evaluations s.inputs
  err := e

/-- The state after the outputs have settled (R235). Nothing else changes. -/
def State.settleTo (s : State) (o : Outputs) : State :=
  { s with outputs := o, evaluations := s.evaluations + 1 }

/-- Reporting an error: its code on `err`, no result, and nothing else happens. There is no trap (R75, R202, R207). -/
def State.reportError (s : State) (k : ErrorKind) : State := s.settleTo (unspecifiedOutputs s k.code)

/-- Delivering the outcome of the selected sub-block: a result is driven on the outputs the operation defines, with OK on
`err` (R12, R74, R76); an error is reported; a refused input has no meaning (R13, R204). -/
def State.deliver {α : Type} (s : State) (drive : α → Outputs → Outputs) (r : OpOutcome α) :
    Host.Outcome State Fault Refusal :=
  match r with
  | .ok x => .next (s.settleTo (drive x (unspecifiedOutputs s errOk)))
  | .err k => .next (s.reportError k)
  | .refused why => .refused why

/-- Drives `idx` (R70). -/
def driveIdx (i : BitVec 5) (o : Outputs) : Outputs := { o with idx := i }

/-- Drives `res` (R71, R73). -/
def driveRes (p : Packed) (o : Outputs) : Outputs := { o with res := p }

/-- Drives `dec_sig` and `dec_exp` (R72). -/
def driveDec (d : BitVec 11 × BitVec 6) (o : Outputs) : Outputs := { o with decSig := d.1, decExp := d.2 }

/-- The result outputs that the selected operation defines (R76). -/
def State.definedResult (s : State) : Result :=
  if s.inputs.op = opMsb then .index s.outputs.idx
  else if s.inputs.op = opDec then .real s.outputs.decSig s.outputs.decExp
  else .packed s.outputs.res

/-- The outcome as a user of the block reads it off settled pins: the code first, and the result outputs only when the
code is OK (R74, R75, R234). -/
def State.readOutcome (s : State) : Except Fault (OpOutcome Result) :=
  if s.outputs.err = errOk then .ok (.ok s.definedResult)
  else if s.outputs.err = ErrorKind.preconditionError.code then .ok (.err .preconditionError)
  else if s.outputs.err = ErrorKind.rangeError.code then .ok (.err .rangeError)
  else .error .errReserved

/-- The outcome that an evaluation shows its user: what the settled pins say, or the refusal (R13). -/
def observedOutcome : Host.Outcome State Fault Refusal → Except Fault (OpOutcome Result)
  | .next t => t.readOutcome
  | .fault f => .error f
  | .refused why => .ok (.refused why)

end Sys2Proof.Machine
end

