-- ==== Sys2Proof/Machine/Decoder.lean ====
section
/-! DEFINITION. `fp16_simplified_decoder` and the operation DEC (42_decoder.md). -/

namespace Sys2Proof.Machine

/-- `dec_sig`: 0 for the zero pattern, else the significand with the hidden bit (R141, R143). -/
def decodedSig (p : Packed) : BitVec 11 :=
  if exponentField p = 0 ∧ mantissaField p = 0 then 0 else BitVec.ofNat 11 (significand p)

/-- `dec_exp = e - 25`, two's complement (R141). -/
def decodedExp (p : Packed) : BitVec 6 := BitVec.ofInt 6 (((exponentField p).toNat : Int) - 25)

/-- `decode(p)` (R141): never an error for an admitted pattern (R146). -/
def decodePacked (p : Packed) : OpOutcome (BitVec 11 × BitVec 6) :=
  requireBit15Clear p (.ok (decodedSig p, decodedExp p))

/-- `DEC p` (R141). -/
def execDec (p : Packed) (s : State) : Host.Outcome State Fault Refusal :=
  (s.present (.dec p)).deliver driveDec (decodePacked p)

end Sys2Proof.Machine
end

