-- ==== Sys2Proof/Machine/Detector.lean ====
section
/-! DEFINITION. `msbposition_detector #(W)` and the operation MSB (40_msbposition_detector.md). -/

namespace Sys2Proof.Machine

/-- The largest `i` below `n` with `v[i] = 1`; 0 when there is none. -/
def topSetBit {w : Nat} (v : BitVec w) : Nat → Nat
  | 0 => 0
  | n + 1 => if v.getLsbD n then n else topSetBit v n

/-- `highestSetBitIndex(v)` of an instance of width `w` (R101): PreconditionError for 0 (R102), else the index. The spec's
instances have `1 <= w <= 32` (R70), for which the index fits its five bits. -/
def highestSetBitIndex {w : Nat} (v : BitVec w) : OpOutcome (BitVec 5) :=
  if v = 0 then .err .preconditionError else .ok (BitVec.ofNat 5 (topSetBit v w))

/-- `MSB v` (R101). -/
def execMsb (v : IntWord) (s : State) : Host.Outcome State Fault Refusal :=
  (s.present (.msb v)).deliver driveIdx (highestSetBitIndex v)

end Sys2Proof.Machine
end

