-- ==== Sys2Proof/Machine/Encoder.lean ====
section
/-! DEFINITION. `fp16_simplified_encoder` and the operation ENC (41_encoder.md). -/

namespace Sys2Proof.Machine

/-- A shift by a signed amount: left, or right with the low bits dropped (R121, R125). -/
def shiftBy (r : Nat) (shift : Int) : Nat :=
  if 0 ≤ shift then r <<< shift.toNat else r >>> (-shift).toNat

/-- The mantissa of a non-zero value whose highest set bit is `msb`: the hidden bit cleared (R124), the rest shifted to
ten bits (R125), masked (R126). -/
def encodedMantissa (value msb : Nat) : BitVec 10 :=
  BitVec.ofNat 10 (shiftBy (value ^^^ (1 <<< msb)) ((Config.mantissaLength : Int) - msb) &&&
    (2 ^ Config.mantissaLength - 1))

/-- The packing of a non-zero value once its highest set bit is known: the range check first (R122), then the fields. -/
def encodeFields (value : IntWord) (idx : BitVec 5) : OpOutcome Packed :=
  if Config.bias + idx.toNat > Config.encoderMaxExponent then .err .rangeError
  else .ok (compose (BitVec.ofNat 5 (Config.bias + idx.toNat)) (encodedMantissa value.toNat idx.toNat))

/-- `encode(value)` (R121). Zero succeeds without the detector (R123). -/
def encodeValue (value : IntWord) : OpOutcome Packed :=
  if value = 0 then .ok 0 else (highestSetBitIndex value).bind (encodeFields value)

/-- `ENC value` (R121). -/
def execEnc (value : IntWord) (s : State) : Host.Outcome State Fault Refusal :=
  (s.present (.enc value)).deliver driveRes (encodeValue value)

end Sys2Proof.Machine
end

