-- ==== Sys2Proof/Machine/Multiplier.lean ====
section
/-! DEFINITION. `fp16_simplified_multiplier` and the operation MUL (43_multiplier.md). -/

namespace Sys2Proof.Machine

/-- `rawProduct = sigA * sigB`, exact (R163). -/
def rawProduct (a b : Packed) : Nat := significand a * significand b

/-- `rawExponent = expA + expB - BIAS` before the carry, a signed integer (R164). -/
def rawExponent (a b : Packed) : Int :=
  (exponentField a).toNat + (exponentField b).toNat - Config.bias

/-- `rawExponent` after the carry: one more exactly when the product reached bit 21 (R165). -/
def finalExponent (a b : Packed) (topBit : Nat) : Int :=
  if topBit = 2 * Config.mantissaLength + 1 then rawExponent a b + 1 else rawExponent a b

/-- The mantissa of the product: shifted right by `topBit - M`, so low bits are dropped and nothing is rounded (R166,
R167), which leaves an 11-bit window; bit 10, the hidden bit, cleared; the ten bits below it. -/
def normalizedMantissa (product topBit : Nat) : BitVec 10 :=
  (BitVec.ofNat 11 (product >>> (topBit - Config.mantissaLength)) &&&
    ~~~(1#11 <<< Config.mantissaLength)).setWidth 10

/-- The result once the product's highest set bit is known, with the range check on the final exponent (R168). -/
def multiplyFields (a b : Packed) (idx : BitVec 5) : OpOutcome Packed :=
  if finalExponent a b idx.toNat < 0 ∨ finalExponent a b idx.toNat > Config.maxExponentField then .err .rangeError
  else .ok (compose (BitVec.ofInt 5 (finalExponent a b idx.toNat)) (normalizedMantissa (rawProduct a b) idx.toNat))

/-- `multiply(a, b)` (R161). No zero case (R169): the pattern `0x0000` enters like any other. -/
def multiply (a b : Packed) : OpOutcome Packed :=
  requireBit15Clear a (requireBit15Clear b
    ((highestSetBitIndex (BitVec.ofNat Config.productWidth (rawProduct a b))).bind (multiplyFields a b)))

/-- `MUL a, b` (R161). -/
def execMul (a b : Packed) (s : State) : Host.Outcome State Fault Refusal :=
  (s.present (.mul a b)).deliver driveRes (multiply a b)

end Sys2Proof.Machine
end

