-- ==== Sys2Proof/Machine/Dispatch.lean ====
section
/-! DEFINITION. One arm per operation (R76). -/

namespace Sys2Proof.Machine

def exec (i : Instr) (s : State) : Host.Outcome State Fault Refusal :=
  match i with
  | .msb v => Sys2Proof.Machine.execMsb v s
  | .enc value => Sys2Proof.Machine.execEnc value s
  | .dec p => Sys2Proof.Machine.execDec p s
  | .mul a b => Sys2Proof.Machine.execMul a b s

end Sys2Proof.Machine
end

