-- ==== Sys2Proof/Machine/Step.lean ====
section
/-! DEFINITION. One step: the outputs settle for the inputs that stand on the ports (R235).

The block fetches nothing and has no program counter (R23, R51). The next operation is what the input ports present. -/

namespace Sys2Proof.Machine

/-- One evaluation of the wrapper (R76, R235). -/
def step (s : State) : Host.Outcome State Fault Refusal := exec (decode s.inputs) s

/-- The state whose input ports hold the host's word: the outside world has driven the inputs. Nothing else changes
(notes/assumptions/6.md, notes/assumptions/7.md). -/
def State.withFetchWord (s : State) (nbits w : Nat) : State :=
  { s with inputs := Inputs.ofWord (BitVec.ofNat 65 (tableNumber nbits w)) }

end Sys2Proof.Machine
end

