-- ==== Sys2Proof/Machine/Value.lean ====
section
/-! DEFINITION. The exact values that patterns and the decoder's pins stand for (R63, R141, R147). No operation computes
with them; the laws of the spec are stated in them. -/

namespace Sys2Proof.Machine

/-- `value(p)` (R63), as an exact rational. The spec gives a pattern with bit 15 set no value (R13, R62): its value here is
free, so nothing is known of it. That the function answers at all there is a DESIGN CHOICE (notes/assumptions/13.md). -/
def packedValue (p : Packed) : ℚ :=
  if bit15 p then Config.freeValue p
  else if exponentField p = 0 ∧ mantissaField p = 0 then 0
  else (1 + ((mantissaField p).toNat : ℚ) / 1024) * 2 ^ (((exponentField p).toNat : ℤ) - 15)

/-- The real number on the decoder's pins, `dec_sig * 2^dec_exp` exactly (R72, R141). -/
def pinsValue (sig : BitVec 11) (exp : BitVec 6) : ℚ := (sig.toNat : ℚ) * 2 ^ exp.toInt

/-- The numbers of 11 significant bits, `k * 2^j` with `1024 <= k <= 2047`, that do not exceed `x` (R172). -/
def elevenBitBelow (x : ℚ) : Set ℚ :=
  { y | y ≤ x ∧ ∃ (k : ℕ) (j : ℤ), 1024 ≤ k ∧ k ≤ 2047 ∧ y = (k : ℚ) * 2 ^ j }

/-- `y = trunc11(x)`: the largest number of 11 significant bits that does not exceed `x` (R172). -/
def IsTrunc11 (x y : ℚ) : Prop := IsGreatest (elevenBitBelow x) y

end Sys2Proof.Machine
end

