-- ==== Sys2Proof/Safety.lean ====
section
/-! DEFINITION. What the pins of the wrapper must show, written as relations between port values in plain arithmetic, apart
from the functions of Machine/ that compute them. A claim "the machine meets its rules" is stated in these terms. -/

namespace Sys2Proof.Safety

/-- The exponent field of a pattern as a number, by division (R61). -/
def expOf (p : Packed) : Nat := p.toNat / 1024 % 32

/-- The mantissa field of a pattern as a number, by remainder (R61). -/
def mantOf (p : Packed) : Nat := p.toNat % 1024

/-- MSB (R101, R102): for 0 the code of PreconditionError; else OK and the `i` with `2^i <= v < 2^(i+1)`. -/
def MsbRule (v : IntWord) (o : Outputs) : Prop :=
  if v.toNat = 0 then o.err = 0b01#2
  else o.err = 0b00#2 ∧ 2 ^ o.idx.toNat ≤ v.toNat ∧ v.toNat < 2 ^ (o.idx.toNat + 1)

/-- ENC (R121 to R126): 0 gives the pattern 0; 65536 and above give RangeError; any other value with highest set bit `msb`
gives exponent `15 + msb` and the ten bits below the hidden bit, the rest dropped. -/
def EncRule (value : IntWord) (o : Outputs) : Prop :=
  if value.toNat = 0 then o.err = 0b00#2 ∧ o.res = 0
  else if 65536 ≤ value.toNat then o.err = 0b10#2
  else o.err = 0b00#2 ∧
    ∃ msb : Nat, 2 ^ msb ≤ value.toNat ∧ value.toNat < 2 ^ (msb + 1) ∧
      o.res.toNat = (15 + msb) * 1024 + (value.toNat - 2 ^ msb) * 1024 / 2 ^ msb

/-- DEC (R140, R141, R143, R146): only for an admitted pattern, always OK; the significand, 0 for the zero pattern, and the
power of two `e - 25`. -/
def DecRule (p : Packed) (o : Outputs) : Prop :=
  p.toNat < 32768 ∧ o.err = 0b00#2 ∧
    o.decSig.toNat = (if p.toNat = 0 then 0 else 1024 + mantOf p) ∧
    o.decExp.toInt = (expOf p : Int) - 25

/-- The product of the two significands with the hidden bit restored (R162, R163). -/
def productOf (a b : Packed) : Nat := (1024 + mantOf a) * (1024 + mantOf b)

/-- Whether the product carries into bit 21, that is, reaches `2^21` (R165). -/
def carries (a b : Packed) : Bool := decide (2097152 ≤ productOf a b)

/-- The exponent of the product, after the carry; never reduced (R164, R165). -/
def exponentOf (a b : Packed) : Int := (expOf a : Int) + expOf b - 15 + (if carries a b then 1 else 0)

/-- The mantissa of the product: shifted down by 10, or by 11 after a carry, which leaves 1024 to 2047; the ten bits below
the hidden bit of that (R166). -/
def mantissaOf (a b : Packed) : Nat := productOf a b / (if carries a b then 2048 else 1024) % 1024

/-- MUL (R160, R161, R168): only for admitted operands; RangeError when the exponent is outside `[0, 31]`; else OK and the
pattern of exponent and mantissa. -/
def MulRule (a b : Packed) (o : Outputs) : Prop :=
  a.toNat < 32768 ∧ b.toNat < 32768 ∧
    if exponentOf a b < 0 ∨ 31 < exponentOf a b then o.err = 0b10#2
    else o.err = 0b00#2 ∧ (o.res.toNat : Int) = exponentOf a b * 1024 + mantissaOf a b

/-- The pins carry what the rules give for the inputs that stand on them (R230, R231, R235). -/
def PinsMeetRules (s : Machine.State) : Prop :=
  if s.inputs.op = 0b00#2 then MsbRule s.inputs.v s.outputs
  else if s.inputs.op = 0b01#2 then EncRule s.inputs.v s.outputs
  else if s.inputs.op = 0b10#2 then DecRule s.inputs.a s.outputs
  else MulRule s.inputs.a s.inputs.b s.outputs

end Sys2Proof.Safety
end

