-- ==== Sys2Proof/Certificates/Slice0/Obligations.lean ====
section
/-! DEFINITION. The statements for the provers. Each docstring names the rule or the section of spec/ it formalises, and the
log entry of each choice of the model's that it rests on. In all of them an operation with an error outcome answers a next
state with the code on `err`, which the model deduces from R202, R207 and R208 (notes/assumptions/8.md). -/

open Sys2Proof Sys2Proof.Machine Sys2Proof.Safety

/-! ### Selecting and presenting an operation -/

/-- R76, R77, R78, R83; the image of the ports is the model's choice (notes/assumptions/2.md). Every operation, with every
operand, reads back from its image and from any input ports it is presented on, and the ports read back from their word. -/
def Obligations.InstructionImageRoundTrip : Prop :=
  ∀ (i : Instr) (x : Inputs),
    decodeBytes (encodeBytes i) = .ok i ∧ decode (encodeOnto i x) = i ∧ Inputs.ofWord x.toWord = x

/-- R76, R78. Every value of the input ports presents exactly one operation: the one its `op` selects, on the ports it
reads. That presenting that one again changes no port, and that no other operation leaves the ports so, rests on the model's
choice that presenting keeps the ports an operation does not read (notes/assumptions/3.md). -/
def Obligations.InputsPresentOneOperation : Prop :=
  ∀ x : Inputs,
    (x.op = 0b00#2 → decode x = .msb x.v) ∧ (x.op = 0b01#2 → decode x = .enc x.v) ∧
    (x.op = 0b10#2 → decode x = .dec x.a) ∧ (x.op = 0b11#2 → decode x = .mul x.a x.b) ∧
    ∀ i : Instr, encodeOnto i x = x ↔ i = decode x

/-- R83, R78; the image is the model's choice (notes/assumptions/2.md). An image is read exactly when it has nine bytes and
no bit above the ports' 65. -/
def Obligations.ImageReadExactlyWhenItFitsThePorts : Prop :=
  ∀ bs : List Byte, (∃ i, decodeBytes bs = .ok i) ↔ bs.length = 9 ∧ bytesToNat bs < 2 ^ 65

/-- R235, R76. A step runs the operation that the inputs present. The other two clauses are about the model's choices: that
running an operation is presenting it on the inputs, the unread ones kept, and settling (notes/assumptions/3.md); and that the
host's word (notes/assumptions/2.md), driven onto the inputs from outside (notes/assumptions/7.md), runs the operation it
decodes to. -/
def Obligations.StepRunsPresentedOperation : Prop :=
  ∀ (i : Instr) (s : State),
    (decode s.inputs = i → step s = exec i s) ∧
    exec i s = step { s with inputs := encodeOnto i s.inputs } ∧
    ∀ nbits w : Nat, decodeTableWord nbits w = some i → step (s.withFetchWord nbits w) = exec i (s.withFetchWord nbits w)

/-- The opcode table's words, and words with operands written out. The codes of `op` are those of R76, and the operands those
of programs of 95_test_vectors.md. Where `v`, `a` and `b` stand in the 65-bit word, and so that the bits of a table word above
`op` are the low bits of `v`, is the model's choice (notes/assumptions/2.md). -/
def Obligations.WordsDecodeAsTheTableSays : Prop :=
  decodeTableWord 8 0b00 = some (.msb 0) ∧ decodeTableWord 8 0b01 = some (.enc 0) ∧
  decodeTableWord 8 0b10 = some (.dec 0) ∧ decodeTableWord 8 0b11 = some (.mul 0 0) ∧
  decodeTableWord 65 (0b00 + 0x3E8 * 2 ^ 2) = some (.msb 1000) ∧
  decodeTableWord 65 (0b01 + 0x801 * 2 ^ 2) = some (.enc 2049) ∧
  decodeTableWord 65 (0b10 + 0x4B80 * 2 ^ 33) = some (.dec 0x4B80) ∧
  decodeTableWord 65 (0b11 + 0x4200 * 2 ^ 33 + 0x4500 * 2 ^ 49) = some (.mul 0x4200 0x4500)

/-! ### The whole machine -/

/-- R101, R121, R141, R161, R230, R235. Whatever the state, an evaluation that answers a next state leaves pins that meet
the rules of the selected operation, written in Safety.lean in plain arithmetic; a step keeps the inputs. -/
def Obligations.EveryStepLeavesPinsThatMeetTheRules : Prop :=
  (∀ (i : Instr) (s t : State), exec i s = .next t → PinsMeetRules t) ∧
  ∀ s t : State, step s = .next t → PinsMeetRules t ∧ t.inputs = s.inputs

/-- R231; that the inputs of the first state are 0 is the model's choice (notes/assumptions/5.md). -/
def Obligations.ResetPinsMeetTheRules : Prop :=
  PinsMeetRules State.reset ∧ State.reset.inputs = { op := 0, v := 0, a := 0, b := 0 }

/-- R13, R78, R205. Every operation on admitted operands answers a next state; the only other end is the refusal of a
packed operand with bit 15 set; nothing faults. That an operation with an error outcome (MSB of 0, ENC from 65536 up, MUL out
of range) answers a next state too is what the model deduces from R207 and R208: an error is an output of the evaluation, and
nothing stops (notes/assumptions/8.md). -/
def Obligations.ExactlyTheAdmittedOperationsAnswer : Prop :=
  ∀ (i : Instr) (s : State),
    ((∃ t, exec i s = .next t) ↔ i.wf = true) ∧ (exec i s = .refused .bit15Set ↔ i.wf = false) ∧
    (∀ why, exec i s = .refused why → why = .bit15Set) ∧ ∀ f, exec i s ≠ .fault f

/-- R76. The wrapper shows the selected sub-block: what is read off its pins after an operation is the outcome of the
operation's own sub-block, its error, its refusal, or its result on the outputs that the operation defines. -/
def Obligations.WrapperShowsTheSelectedSubBlock : Prop :=
  ∀ s : State,
    (∀ v : IntWord, observedOutcome (exec (.msb v) s) = .ok ((highestSetBitIndex v).map .index)) ∧
    (∀ v : IntWord, observedOutcome (exec (.enc v) s) = .ok ((encodeValue v).map .packed)) ∧
    (∀ p : Packed, observedOutcome (exec (.dec p) s) = .ok ((decodePacked p).map fun d => .real d.1 d.2)) ∧
    (∀ a b : Packed, observedOutcome (exec (.mul a b) s) = .ok ((multiply a b).map .packed)) ∧
    ∀ (i : Instr) (t : State), exec i s = .next t →
      t.inputs.op = (match i with | .msb _ => 0b00#2 | .enc _ => 0b01#2 | .dec _ => 0b10#2 | .mul _ _ => 0b11#2)

/-- R62. What ENC and MUL produce has bit 15 clear; an operand with bit 15 set is refused by DEC and by MUL. -/
def Obligations.BitFifteenClearOnResultsRefusedOnOperands : Prop :=
  (∀ (v : IntWord) (s t : State), exec (.enc v) s = .next t → t.outputs.err = 0b00#2 → t.outputs.res.toNat < 32768) ∧
  (∀ (a b : Packed) (s t : State), exec (.mul a b) s = .next t → t.outputs.err = 0b00#2 → t.outputs.res.toNat < 32768) ∧
  (∀ (p : Packed) (s : State), 32768 ≤ p.toNat → exec (.dec p) s = .refused .bit15Set) ∧
  ∀ (a b : Packed) (s : State), 32768 ≤ a.toNat ∨ 32768 ≤ b.toNat → exec (.mul a b) s = .refused .bit15Set

/-- R74, R201. The complete list of errors: PreconditionError is MSB of 0, RangeError is ENC from 65536 up and MUL with an
exponent outside `[0, 31]`, everything else that answers is OK, and the code `0b11` is never produced. -/
def Obligations.EveryErrorCodeHasItsCause : Prop :=
  ∀ (i : Instr) (s t : State), exec i s = .next t →
    (t.outputs.err = 0b01#2 ↔ i = .msb 0) ∧
    (t.outputs.err = 0b10#2 ↔ (∃ v : IntWord, i = .enc v ∧ 65536 ≤ v.toNat) ∨
      ∃ a b : Packed, i = .mul a b ∧ (exponentOf a b < 0 ∨ 31 < exponentOf a b)) ∧
    t.outputs.err ≠ 0b11#2 ∧
    (t.readOutcome = .ok (.err .preconditionError) ↔ t.outputs.err = 0b01#2) ∧
    (t.readOutcome = .ok (.err .rangeError) ↔ t.outputs.err = 0b10#2) ∧
    (t.readOutcome = .ok (.ok t.definedResult) ↔ t.outputs.err = 0b00#2)

/-- R20, R21, R77. The outcome of an evaluation depends only on `op` and the inputs that the selected operation reads: not on
the other inputs, the outputs, or what was evaluated before. -/
def Obligations.OutcomeDependsOnlyOnTheInputsRead : Prop :=
  (∀ s t : State, decode s.inputs = decode t.inputs → observedOutcome (step s) = observedOutcome (step t)) ∧
  (∀ x y : Inputs, x.op = y.op → (x.op = 0b00#2 ∨ x.op = 0b01#2 → x.v = y.v) →
    (x.op = 0b10#2 ∨ x.op = 0b11#2 → x.a = y.a) → (x.op = 0b11#2 → x.b = y.b) → decode x = decode y) ∧
  ∀ (i : Instr) (s t : State), observedOutcome (exec i s) = observedOutcome (exec i t)

/-- R45, R208. Evaluating again with the same inputs gives the same outcome, error or result; a step that answered
answers again. -/
def Obligations.RepeatedStepGivesTheSameOutcome : Prop :=
  ∀ s t : State, step s = .next t →
    ∃ u, step t = .next u ∧ u.inputs = s.inputs ∧ u.readOutcome = t.readOutcome ∧ u.outputs.err = t.outputs.err

/-- R77; that exec drives the inputs an operation reads and leaves the others is the model's choice
(notes/assumptions/3.md). The frame on the input side: `op` and the operands are what was presented, every other input keeps
its value. That one evaluation is counted is about the model's own counter (notes/assumptions/1.md, notes/assumptions/4.md),
which is no counter of the hardware's: it has none (R213). -/
def Obligations.EvaluationKeepsTheInputsItDoesNotRead : Prop :=
  (∀ (v : IntWord) (s t : State), exec (.msb v) s = .next t →
    t.inputs = { op := 0b00#2, v := v, a := s.inputs.a, b := s.inputs.b } ∧ t.evaluations = s.evaluations + 1) ∧
  (∀ (v : IntWord) (s t : State), exec (.enc v) s = .next t →
    t.inputs = { op := 0b01#2, v := v, a := s.inputs.a, b := s.inputs.b } ∧ t.evaluations = s.evaluations + 1) ∧
  (∀ (p : Packed) (s t : State), exec (.dec p) s = .next t →
    t.inputs = { op := 0b10#2, v := s.inputs.v, a := p, b := s.inputs.b } ∧ t.evaluations = s.evaluations + 1) ∧
  ∀ (a b : Packed) (s t : State), exec (.mul a b) s = .next t →
    t.inputs = { op := 0b11#2, v := s.inputs.v, a := a, b := b } ∧ t.evaluations = s.evaluations + 1

/-- R75, R77, in the form of the model's free values (notes/assumptions/4.md). A result pin that the operation does not
define carries its free value, and on an error every result pin does: nothing is kept from before. -/
def Obligations.UndefinedResultPinsCarryFreeValues : Prop :=
  ∀ (i : Instr) (s t : State), exec i s = .next t →
    (t.inputs.op ≠ 0b00#2 ∨ t.outputs.err ≠ 0b00#2 → t.outputs.idx = Config.freeIdx s.evaluations t.inputs) ∧
    ((t.inputs.op = 0b00#2 ∨ t.inputs.op = 0b10#2) ∨ t.outputs.err ≠ 0b00#2 →
      t.outputs.res = Config.freeRes s.evaluations t.inputs) ∧
    (t.inputs.op ≠ 0b10#2 ∨ t.outputs.err ≠ 0b00#2 →
      t.outputs.decSig = Config.freeDecSig s.evaluations t.inputs ∧
        t.outputs.decExp = Config.freeDecExp s.evaluations t.inputs)

/-! ### MSB -/

/-- R101. The detector of every width from 1 to 32 gives the largest index with a set bit, and PreconditionError for 0; MSB
gives that index of its 31-bit operand on `idx` with OK, or the code of PreconditionError. -/
def Obligations.MsbGivesTheHighestSetBit : Prop :=
  (∀ (w : Nat) (v : BitVec w), 1 ≤ w → w ≤ 32 →
    (v = 0 → highestSetBitIndex v = .err .preconditionError) ∧
    (v ≠ 0 → ∃ i : BitVec 5, highestSetBitIndex v = .ok i ∧ i.toNat < w ∧ v.getLsbD i.toNat = true ∧
      (∀ j, v.getLsbD j = true → j ≤ i.toNat) ∧ 2 ^ i.toNat ≤ v.toNat ∧ v.toNat < 2 ^ (i.toNat + 1))) ∧
  (∀ (v : IntWord) (s : State), v ≠ 0 →
    ∃ t, exec (.msb v) s = .next t ∧ t.inputs.op = 0b00#2 ∧ t.inputs.v = v ∧ t.outputs.err = 0b00#2 ∧
      t.outputs.idx.toNat < 31 ∧ v.getLsbD t.outputs.idx.toNat = true ∧
      ∀ j, v.getLsbD j = true → j ≤ t.outputs.idx.toNat) ∧
  ∀ s : State, ∃ t, exec (.msb 0) s = .next t ∧ t.outputs.err = 0b01#2

/-- R102. MSB of 0 has the outcome PreconditionError, code `0b01`, and no index is read off its pins, whatever they carry.
So has the detector of every width of the spec, 1 to 32 (R70). -/
def Obligations.MsbOfZeroIsPreconditionError : Prop :=
  (∀ w : Nat, 1 ≤ w → w ≤ 32 → highestSetBitIndex (0 : BitVec w) = .err .preconditionError) ∧
  ∀ s : State, ∃ t, exec (.msb 0) s = .next t ∧ t.outputs.err = 0b01#2 ∧
    t.readOutcome = .ok (.err .preconditionError) ∧ ∀ r, t.readOutcome ≠ .ok (.ok r)

/-- R105. Instances of two widths give the same index of a number that both can take. -/
def Obligations.DetectorIndexDoesNotDependOnWidth : Prop :=
  ∀ (w1 w2 : Nat) (v : BitVec w1), w1 ≤ w2 → w2 ≤ 32 → v ≠ 0 →
    highestSetBitIndex (v.setWidth w2) = highestSetBitIndex v

/-- R163, R107. The product of the significands needs 21 or 22 bits, and the multiplier's detector answers 20 or 21 on it,
21 exactly when it reaches `2^21`; so it never errors. -/
def Obligations.ProductIndexIsTwentyOrTwentyOne : Prop :=
  ∀ a b : Packed,
    2 ^ 20 ≤ rawProduct a b ∧ rawProduct a b ≤ 4190209 ∧ rawProduct a b = productOf a b ∧
    highestSetBitIndex (BitVec.ofNat 22 (rawProduct a b)) = .ok (if carries a b then 21#5 else 20#5)

/-! ### ENC -/

/-- R121. ENC of 0 is the pattern 0; of a value below 65536 with highest set bit `msb`, the pattern of exponent `15 + msb`
and the bits below the hidden one scaled to ten, the rest dropped; from 65536 up, RangeError. -/
def Obligations.EncPacksByTruncation : Prop :=
  ∀ (v : IntWord) (s : State), ∃ t, exec (.enc v) s = .next t ∧ t.inputs.op = 0b01#2 ∧ t.inputs.v = v ∧
    (v.toNat = 0 → t.outputs.err = 0b00#2 ∧ t.outputs.res = 0x0000#16) ∧
    (∀ msb : Nat, 2 ^ msb ≤ v.toNat → v.toNat < 2 ^ (msb + 1) → v.toNat < 65536 →
      t.outputs.err = 0b00#2 ∧ t.outputs.res.toNat < 32768 ∧ expOf t.outputs.res = 15 + msb ∧
        (msb ≤ 10 → mantOf t.outputs.res = (v.toNat - 2 ^ msb) * 2 ^ (10 - msb)) ∧
        (11 ≤ msb → mantOf t.outputs.res = (v.toNat - 2 ^ msb) / 2 ^ (msb - 10))) ∧
    (65536 ≤ v.toNat → t.outputs.err = 0b10#2)

/-- R122, R132. RangeError exactly from 65536 up, that is for a highest set bit of 16 or more, and no result is read off the
pins; a successful result never has exponent field 31. -/
def Obligations.EncRangeErrorExactlyFrom65536 : Prop :=
  ∀ (v : IntWord) (s : State), ∃ t, exec (.enc v) s = .next t ∧
    (t.outputs.err = 0b10#2 ↔ 65536 ≤ v.toNat) ∧ (t.outputs.err = 0b00#2 ↔ v.toNat < 65536) ∧
    (∀ i : BitVec 5, highestSetBitIndex v = .ok i → (t.outputs.err = 0b10#2 ↔ 16 ≤ i.toNat)) ∧
    (65536 ≤ v.toNat → t.readOutcome = .ok (.err .rangeError)) ∧
    (t.outputs.err = 0b00#2 → expOf t.outputs.res ≠ 31)

/-- R123. ENC of 0 succeeds with the pattern 0, and decoding it gives 0. -/
def Obligations.EncOfZeroDecodesToZero : Prop :=
  ∀ s : State, ∃ t u, exec (.enc 0) s = .next t ∧ t.outputs.err = 0b00#2 ∧ t.outputs.res = 0x0000#16 ∧
    exec (.dec t.outputs.res) t = .next u ∧ u.outputs.err = 0b00#2 ∧ pinsValue u.outputs.decSig u.outputs.decExp = 0

/-- R128. Every integer up to 2047 decodes from its encoding exactly. -/
def Obligations.EncThenDecIsExactUpTo2047 : Prop :=
  ∀ (v : IntWord) (s : State), v.toNat ≤ 2047 →
    ∃ t u, exec (.enc v) s = .next t ∧ t.outputs.err = 0b00#2 ∧ exec (.dec t.outputs.res) t = .next u ∧
      u.outputs.err = 0b00#2 ∧ pinsValue u.outputs.decSig u.outputs.decExp = (v.toNat : ℚ)

/-- R129. From 2048 to 65535 the decoded value is the integer with its bits below the eleventh dropped: the loss is exactly
the value of those bits. The worked case: 2049 encodes to `0x6800` and decodes to 2048. -/
def Obligations.EncThenDecDropsTheLowBits : Prop :=
  (∀ (v : IntWord) (s : State) (msb : Nat), 2048 ≤ v.toNat → v.toNat ≤ 65535 → 2 ^ msb ≤ v.toNat →
    v.toNat < 2 ^ (msb + 1) →
    ∃ t u, exec (.enc v) s = .next t ∧ t.outputs.err = 0b00#2 ∧ exec (.dec t.outputs.res) t = .next u ∧
      u.outputs.err = 0b00#2 ∧
      pinsValue u.outputs.decSig u.outputs.decExp = ((v.toNat / 2 ^ (msb - 10) * 2 ^ (msb - 10) : Nat) : ℚ) ∧
      (v.toNat : ℚ) - 2 ^ (msb - 10) < pinsValue u.outputs.decSig u.outputs.decExp ∧
      pinsValue u.outputs.decSig u.outputs.decExp ≤ (v.toNat : ℚ) ∧
      (v.toNat : ℚ) - pinsValue u.outputs.decSig u.outputs.decExp = ((v.toNat % 2 ^ (msb - 10) : Nat) : ℚ)) ∧
  ∀ s : State, ∃ t u, exec (.enc 2049) s = .next t ∧ t.outputs.res = 0x6800#16 ∧
    exec (.dec t.outputs.res) t = .next u ∧ pinsValue u.outputs.decSig u.outputs.decExp = 2048

/-- R130. Every successful result of ENC has bit 15 clear, a mantissa field up to 1023, and exponent field 0 for 0, else 15
to 30. -/
def Obligations.EncResultFieldBounds : Prop :=
  ∀ (v : IntWord) (s t : State), exec (.enc v) s = .next t → t.outputs.err = 0b00#2 →
    t.outputs.res.toNat < 32768 ∧ (mantissaField t.outputs.res).toNat ≤ 1023 ∧
    (v.toNat = 0 → (exponentField t.outputs.res).toNat = 0) ∧
    (1 ≤ v.toNat → v.toNat ≤ 65535 ∧ 15 ≤ (exponentField t.outputs.res).toNat ∧
      (exponentField t.outputs.res).toNat ≤ 30)

/-- R131. Encoding keeps order: a smaller integer decodes to no larger a value. -/
def Obligations.EncIsMonotonic : Prop :=
  ∀ (v1 v2 : IntWord) (s1 s2 : State), v1.toNat ≤ v2.toNat → v2.toNat ≤ 65535 →
    ∃ t1 t2 u1 u2, exec (.enc v1) s1 = .next t1 ∧ exec (.enc v2) s2 = .next t2 ∧
      t1.outputs.err = 0b00#2 ∧ t2.outputs.err = 0b00#2 ∧
      exec (.dec t1.outputs.res) t1 = .next u1 ∧ exec (.dec t2.outputs.res) t2 = .next u2 ∧
      pinsValue u1.outputs.decSig u1.outputs.decExp ≤ pinsValue u2.outputs.decSig u2.outputs.decExp

/-! ### DEC -/

/-- R141. DEC of an admitted pattern answers OK with significand 0 for the zero pattern, else 1024 plus the mantissa field,
and the power of two `e - 25`; the value on the pins is the value of the pattern. A pattern with bit 15 set is refused. -/
def Obligations.DecGivesTheExactValue : Prop :=
  (∀ (p : Packed) (s : State), p.toNat < 32768 →
    ∃ t, exec (.dec p) s = .next t ∧ t.inputs.op = 0b10#2 ∧ t.inputs.a = p ∧ t.outputs.err = 0b00#2 ∧
      t.outputs.decSig.toNat = (if expOf p = 0 ∧ mantOf p = 0 then 0 else 1024 + mantOf p) ∧
      t.outputs.decExp.toInt = (expOf p : Int) - 25 ∧
      pinsValue t.outputs.decSig t.outputs.decExp =
        (if expOf p = 0 ∧ mantOf p = 0 then 0 else (1 + (mantOf p : ℚ) / 1024) * 2 ^ ((expOf p : ℤ) - 15)) ∧
      pinsValue t.outputs.decSig t.outputs.decExp = packedValue p) ∧
  ∀ (p : Packed) (s : State), 32768 ≤ p.toNat → exec (.dec p) s = .refused .bit15Set

/-- R143, R144, R145. The zero pattern decodes to 0; a zero exponent field with a mantissa decodes by the formula with the
hidden bit; exponent field 31 decodes by the formula, to 65536 at least and 131008 at most, and the encoder never produces
such a pattern. -/
def Obligations.DecOfTheEndsOfTheExponentRange : Prop :=
  (∀ s : State, ∃ t, exec (.dec 0x0000#16) s = .next t ∧ t.outputs.err = 0b00#2 ∧ t.outputs.decSig = 0 ∧
    t.outputs.decExp.toInt = -25 ∧ pinsValue t.outputs.decSig t.outputs.decExp = 0) ∧
  (∀ (p : Packed) (s : State), 1 ≤ p.toNat → p.toNat ≤ 0x03FF →
    ∃ t, exec (.dec p) s = .next t ∧ t.outputs.err = 0b00#2 ∧
      pinsValue t.outputs.decSig t.outputs.decExp = (1 + (mantOf p : ℚ) / 1024) * 2 ^ (-15 : ℤ)) ∧
  (∀ (p : Packed) (s : State), 0x7C00 ≤ p.toNat → p.toNat ≤ 0x7FFF →
    ∃ t, exec (.dec p) s = .next t ∧ t.outputs.err = 0b00#2 ∧
      pinsValue t.outputs.decSig t.outputs.decExp = (1 + (mantOf p : ℚ) / 1024) * 2 ^ 16 ∧
      65536 ≤ pinsValue t.outputs.decSig t.outputs.decExp ∧ pinsValue t.outputs.decSig t.outputs.decExp ≤ 131008) ∧
  ∀ (v : IntWord) (s t : State), exec (.enc v) s = .next t → t.outputs.err = 0b00#2 → t.outputs.res.toNat < 0x7C00

/-- R63, R66. Two admitted patterns of one value are one pattern, and only the zero pattern has the value 0. -/
def Obligations.AdmittedPatternsHaveDistinctValues : Prop :=
  (∀ p q : Packed, p.toNat < 32768 → q.toNat < 32768 → packedValue p = packedValue q → p = q) ∧
  ∀ p : Packed, p.toNat < 32768 → p ≠ 0x0000#16 →
    packedValue p = ((1024 + mantOf p : Nat) : ℚ) * 2 ^ ((expOf p : ℤ) - 25) ∧ packedValue p ≠ 0

/-! ### MUL -/

/-- R161. MUL of admitted operands answers: with OK and the pattern of the final exponent and the truncated mantissa when
the exponent is in `[0, 31]`, else with RangeError. An operand with bit 15 set is refused. -/
def Obligations.MulGivesTheTruncatedProduct : Prop :=
  (∀ (a b : Packed) (s : State), a.toNat < 32768 → b.toNat < 32768 → 0 ≤ exponentOf a b → exponentOf a b ≤ 31 →
    ∃ t, exec (.mul a b) s = .next t ∧ t.inputs.op = 0b11#2 ∧ t.inputs.a = a ∧ t.inputs.b = b ∧
      t.outputs.err = 0b00#2 ∧ t.outputs.res.toNat < 32768 ∧ (expOf t.outputs.res : Int) = exponentOf a b ∧
      mantOf t.outputs.res = mantissaOf a b) ∧
  (∀ (a b : Packed) (s : State), a.toNat < 32768 → b.toNat < 32768 → exponentOf a b < 0 ∨ 31 < exponentOf a b →
    ∃ t, exec (.mul a b) s = .next t ∧ t.outputs.err = 0b10#2) ∧
  ∀ (a b : Packed) (s : State), 32768 ≤ a.toNat ∨ 32768 ≤ b.toNat → exec (.mul a b) s = .refused .bit15Set

/-- R174. Which pairs overflow and which underflow, by the sum of the exponent fields and the carry; two largest encoder
results give RangeError. -/
def Obligations.MulRangeErrorBySumOfExponents : Prop :=
  (∀ (a b : Packed) (s : State), a.toNat < 32768 → b.toNat < 32768 →
    ∃ t, exec (.mul a b) s = .next t ∧
      (31 < exponentOf a b ↔ 47 ≤ expOf a + expOf b ∨ expOf a + expOf b = 46 ∧ carries a b = true) ∧
      (exponentOf a b < 0 ↔ expOf a + expOf b ≤ 13 ∨ expOf a + expOf b = 14 ∧ carries a b = false) ∧
      (t.outputs.err = 0b10#2 ↔
        47 ≤ expOf a + expOf b ∨ expOf a + expOf b = 46 ∧ carries a b = true ∨
        expOf a + expOf b ≤ 13 ∨ expOf a + expOf b = 14 ∧ carries a b = false) ∧
      (t.outputs.err = 0b10#2 → t.readOutcome = .ok (.err .rangeError))) ∧
  ∀ s : State, ∃ t, exec (.mul 0x7BFF#16 0x7BFF#16) s = .next t ∧ t.outputs.err = 0b10#2

/-- R171. MUL commutes, error and refusal outcomes included. -/
def Obligations.MulCommutes : Prop :=
  ∀ (a b : Packed) (s : State),
    multiply a b = multiply b a ∧ observedOutcome (exec (.mul a b) s) = observedOutcome (exec (.mul b a) s)

/-- R172. The product of two patterns, neither the zero pattern, when it succeeds with a pattern that is not the zero
pattern, has the exact product truncated to 11 significant bits as its value; so it is short by less than `2^-10` of
itself. For integers 1 to 16, encoded, the decoded product is exact. -/
def Obligations.MulTruncatesTheExactProduct : Prop :=
  (∀ (a b : Packed) (s t : State), a.toNat < 32768 → b.toNat < 32768 → a ≠ 0x0000#16 → b ≠ 0x0000#16 →
    exec (.mul a b) s = .next t → t.outputs.err = 0b00#2 → t.outputs.res ≠ 0x0000#16 →
    IsTrunc11 (packedValue a * packedValue b) (packedValue t.outputs.res) ∧
    0 ≤ packedValue a * packedValue b - packedValue t.outputs.res ∧
    packedValue a * packedValue b - packedValue t.outputs.res < 1 / 2 ^ 10 * packedValue t.outputs.res) ∧
  ∀ (m n : IntWord) (s : State), 1 ≤ m.toNat → m.toNat ≤ 16 → 1 ≤ n.toNat → n.toNat ≤ 16 →
    ∃ t u x y, exec (.enc m) s = .next t ∧ exec (.enc n) t = .next u ∧
      exec (.mul t.outputs.res u.outputs.res) u = .next x ∧ x.outputs.err = 0b00#2 ∧
      exec (.dec x.outputs.res) x = .next y ∧
      pinsValue y.outputs.decSig y.outputs.decExp = (m.toNat : ℚ) * (n.toNat : ℚ)

/-- R173. `0x3C00`, the encoding of 1, is the identity for every admitted operand, the zero pattern included. -/
def Obligations.MulByOneIsTheIdentity : Prop :=
  (∀ (x : Packed) (s : State), x.toNat < 32768 →
    ∃ t, exec (.mul x 0x3C00#16) s = .next t ∧ t.outputs.err = 0b00#2 ∧ t.outputs.res = x) ∧
  ∀ s : State, ∃ t, exec (.enc 1) s = .next t ∧ t.outputs.err = 0b00#2 ∧ t.outputs.res = 0x3C00#16

/-- R169. As a multiplicand the zero pattern acts as `2^-15`: the exponent field of the other operand goes down by 15 and
its mantissa stays, or RangeError below 15. So a product with the encoding of 0 is not the encoding of 0 for 2 and above, and
0 times 0 is an error. -/
def Obligations.MulByTheZeroPatternIsNotZero : Prop :=
  (∀ (x : Packed) (s : State), x.toNat < 32768 → 15 ≤ expOf x →
    ∃ t, exec (.mul 0x0000#16 x) s = .next t ∧ t.outputs.err = 0b00#2 ∧
      expOf t.outputs.res = expOf x - 15 ∧ mantOf t.outputs.res = mantOf x ∧ t.outputs.res.toNat < 32768) ∧
  (∀ (x : Packed) (s : State), x.toNat < 32768 → expOf x < 15 →
    ∃ t, exec (.mul 0x0000#16 x) s = .next t ∧ t.outputs.err = 0b10#2) ∧
  (∀ (n : IntWord) (s : State), 2 ≤ n.toNat → n.toNat ≤ 65535 →
    ∃ t u, exec (.enc n) s = .next t ∧ t.outputs.err = 0b00#2 ∧
      exec (.mul 0x0000#16 t.outputs.res) t = .next u ∧ u.outputs.err = 0b00#2 ∧ u.outputs.res ≠ 0x0000#16) ∧
  ∀ s : State, ∃ t, exec (.mul 0x0000#16 0x0000#16) s = .next t ∧ t.outputs.err = 0b10#2

/-- R170. A result of exponent 0 and mantissa 0 is returned with OK as the zero pattern, which decodes to 0; the worked case
is `2^-7` times `2^-8`, whose exact product is `2^-15`. -/
def Obligations.MulResultMayReadAsZero : Prop :=
  (∀ (a b : Packed) (s : State), a.toNat < 32768 → b.toNat < 32768 → exponentOf a b = 0 → mantissaOf a b = 0 →
    ∃ t u, exec (.mul a b) s = .next t ∧ t.outputs.err = 0b00#2 ∧ t.outputs.res = 0x0000#16 ∧
      exec (.dec t.outputs.res) t = .next u ∧ pinsValue u.outputs.decSig u.outputs.decExp = 0) ∧
  packedValue 0x2000#16 * packedValue 0x1C00#16 = 2 ^ (-15 : ℤ) ∧
  ∀ s : State, ∃ t, exec (.mul 0x2000#16 0x1C00#16) s = .next t ∧ t.outputs.err = 0b00#2 ∧
    t.outputs.res = 0x0000#16
end

