-- ==== Sys2Proof/Laws/Decode.lean ====
section
/-! SUPPORT. Presenting an operation on the inputs and reading it back. -/

namespace Sys2Proof

/-- An operation presented on any inputs is what they read as. -/
theorem decode_encodeOnto (i : Instr) (x : Inputs) : decode (encodeOnto i x) = i := by
  cases i <;> simp [decode, encodeOnto, opMsb, opEnc, opDec, opMul]

/-- Presenting the operation that the inputs already present changes nothing. -/
theorem encodeOnto_decode (x : Inputs) : encodeOnto (decode x) x = x := by
  obtain ⟨op, v, a, b⟩ := x
  rcases op with ⟨n⟩
  rcases n with ⟨n, hn⟩
  interval_cases n <;> rfl

theorem Inputs.ofWord_toWord (x : Inputs) : Inputs.ofWord x.toWord = x := by
  obtain ⟨op, v, a, b⟩ := x
  simp only [Inputs.ofWord, Inputs.toWord, Inputs.mk.injEq]
  refine ⟨?_, ?_, ?_, ?_⟩ <;> (apply BitVec.eq_of_getLsbD_eq; intro i hi; simp; grind)

theorem bytesToNat_natToBytes (n x : Nat) : bytesToNat (natToBytes n x) = x % 256 ^ n := by
  induction n generalizing x with
  | zero => simp [natToBytes, bytesToNat, Nat.mod_one]
  | succ n ih =>
    rw [natToBytes, bytesToNat, ih, BitVec.toNat_ofNat, show (256 : Nat) ^ (n + 1) = 256 * 256 ^ n from Nat.pow_succ',
      Nat.mod_mul]

theorem natToBytes_length (n x : Nat) : (natToBytes n x).length = n := by
  induction n generalizing x with
  | zero => rfl
  | succ n ih => rw [natToBytes, List.length_cons, ih]

end Sys2Proof

namespace Sys2Proof.Machine

theorem State.present_decode (s : State) : s.present (decode s.inputs) = s := by
  rw [State.present, encodeOnto_decode]

end Sys2Proof.Machine
end

