-- ==== Sys2Proof/Laws/Operands.lean ====
section
/-! SUPPORT. The fields of a pattern as numbers, and the pattern composed of two fields. -/

namespace Sys2Proof.Machine

theorem exponentField_toNat (p : Packed) : (exponentField p).toNat = p.toNat / 1024 % 32 := by
  simp [exponentField, BitVec.extractLsb'_toNat, Nat.shiftRight_eq_div_pow]

theorem mantissaField_toNat (p : Packed) : (mantissaField p).toNat = p.toNat % 1024 := by
  simp [mantissaField, BitVec.extractLsb'_toNat]

/-- Bit 15 is the top bit: it is clear exactly below 32768. -/
theorem bit15_eq_false_iff (p : Packed) : bit15 p = false ↔ p.toNat < 32768 := by
  have h := p.isLt
  rw [bit15, BitVec.getLsbD, Nat.testBit_eq_decide_div_mod_eq]
  simp
  omega

theorem compose_toNat (e : BitVec 5) (m : BitVec 10) : (compose e m).toNat = e.toNat * 1024 + m.toNat := by
  have he := e.isLt
  have hm := m.isLt
  have h : (0#1 ++ e ++ m : BitVec 16).toNat = (0#1 ++ e).toNat <<< 10 ||| m.toNat := BitVec.toNat_append ..
  have h2 : (0#1 ++ e : BitVec 6).toNat = (0#1).toNat <<< 5 ||| e.toNat := BitVec.toNat_append ..
  rw [compose, h, h2, ← Nat.shiftLeft_add_eq_or_of_lt hm]
  simp [Nat.shiftLeft_eq]

theorem significand_eq (p : Packed) : significand p = 1024 + (mantissaField p).toNat := by
  have hm := (mantissaField p).isLt
  rw [significand, Config.mantissaLength, ← Nat.shiftLeft_add_eq_or_of_lt hm, Nat.one_shiftLeft]

/-- A pattern with bit 15 clear is the composition of its fields. -/
theorem compose_fields {p : Packed} (h : bit15 p = false) : compose (exponentField p) (mantissaField p) = p := by
  rw [bit15_eq_false_iff] at h
  apply BitVec.eq_of_toNat_eq
  rw [compose_toNat, exponentField_toNat, mantissaField_toNat]
  omega

theorem exponentField_compose (e : BitVec 5) (m : BitVec 10) : exponentField (compose e m) = e := by
  have he := e.isLt
  have hm := m.isLt
  apply BitVec.eq_of_toNat_eq
  rw [exponentField_toNat, compose_toNat]
  omega

theorem mantissaField_compose (e : BitVec 5) (m : BitVec 10) : mantissaField (compose e m) = m := by
  have hm := m.isLt
  apply BitVec.eq_of_toNat_eq
  rw [mantissaField_toNat, compose_toNat]
  omega

theorem bit15_compose (e : BitVec 5) (m : BitVec 10) : bit15 (compose e m) = false := by
  have he := e.isLt
  have hm := m.isLt
  rw [bit15_eq_false_iff, compose_toNat]
  omega

@[simp] theorem requireBit15Clear_of_clear {α : Type} {p : Packed} (h : bit15 p = false) (k : OpOutcome α) :
    requireBit15Clear p k = k := by
  simp [requireBit15Clear, h]

@[simp] theorem requireBit15Clear_of_set {α : Type} {p : Packed} (h : bit15 p = true) (k : OpOutcome α) :
    requireBit15Clear p k = .refused .bit15Set := by
  simp [requireBit15Clear, h]

end Sys2Proof.Machine
end

