-- ==== Sys2Proof/Laws/State.lean ====
section
/-! SUPPORT. One lemma per field of the state for each of its updates. -/

namespace Sys2Proof.Machine

@[simp] theorem State.present_inputs (i : Instr) (s : State) : (s.present i).inputs = encodeOnto i s.inputs := rfl
@[simp] theorem State.present_outputs (i : Instr) (s : State) : (s.present i).outputs = s.outputs := rfl
@[simp] theorem State.present_evaluations (i : Instr) (s : State) : (s.present i).evaluations = s.evaluations := rfl

@[simp] theorem State.settleTo_inputs (s : State) (o : Outputs) : (s.settleTo o).inputs = s.inputs := rfl
@[simp] theorem State.settleTo_outputs (s : State) (o : Outputs) : (s.settleTo o).outputs = o := rfl
@[simp] theorem State.settleTo_evaluations (s : State) (o : Outputs) :
    (s.settleTo o).evaluations = s.evaluations + 1 := rfl

@[simp] theorem State.reportError_inputs (s : State) (k : ErrorKind) : (s.reportError k).inputs = s.inputs := rfl
@[simp] theorem State.reportError_outputs (s : State) (k : ErrorKind) :
    (s.reportError k).outputs = unspecifiedOutputs s k.code := rfl
@[simp] theorem State.reportError_evaluations (s : State) (k : ErrorKind) :
    (s.reportError k).evaluations = s.evaluations + 1 := rfl

@[simp] theorem unspecifiedOutputs_err (s : State) (e : ErrCode) : (unspecifiedOutputs s e).err = e := rfl

@[simp] theorem driveIdx_idx (i : BitVec 5) (o : Outputs) : (driveIdx i o).idx = i := rfl
@[simp] theorem driveIdx_err (i : BitVec 5) (o : Outputs) : (driveIdx i o).err = o.err := rfl
@[simp] theorem driveIdx_res (i : BitVec 5) (o : Outputs) : (driveIdx i o).res = o.res := rfl
@[simp] theorem driveIdx_decSig (i : BitVec 5) (o : Outputs) : (driveIdx i o).decSig = o.decSig := rfl
@[simp] theorem driveIdx_decExp (i : BitVec 5) (o : Outputs) : (driveIdx i o).decExp = o.decExp := rfl

@[simp] theorem driveRes_res (p : Packed) (o : Outputs) : (driveRes p o).res = p := rfl
@[simp] theorem driveRes_err (p : Packed) (o : Outputs) : (driveRes p o).err = o.err := rfl
@[simp] theorem driveRes_idx (p : Packed) (o : Outputs) : (driveRes p o).idx = o.idx := rfl
@[simp] theorem driveRes_decSig (p : Packed) (o : Outputs) : (driveRes p o).decSig = o.decSig := rfl
@[simp] theorem driveRes_decExp (p : Packed) (o : Outputs) : (driveRes p o).decExp = o.decExp := rfl

@[simp] theorem driveDec_decSig (d : BitVec 11 × BitVec 6) (o : Outputs) : (driveDec d o).decSig = d.1 := rfl
@[simp] theorem driveDec_decExp (d : BitVec 11 × BitVec 6) (o : Outputs) : (driveDec d o).decExp = d.2 := rfl
@[simp] theorem driveDec_err (d : BitVec 11 × BitVec 6) (o : Outputs) : (driveDec d o).err = o.err := rfl
@[simp] theorem driveDec_idx (d : BitVec 11 × BitVec 6) (o : Outputs) : (driveDec d o).idx = o.idx := rfl
@[simp] theorem driveDec_res (d : BitVec 11 × BitVec 6) (o : Outputs) : (driveDec d o).res = o.res := rfl

end Sys2Proof.Machine
end

