-- ==== Sys2Proof/Laws/Ops.lean ====
section
/-! SUPPORT. What the shared operations can do, said once. -/

namespace Sys2Proof.Machine

/-- Delivering answers a next state in two ways: a result with OK, or an error with its code. -/
theorem State.deliver_next_cases {α : Type} {s t : State} {drive : α → Outputs → Outputs} {r : OpOutcome α}
    (h : s.deliver drive r = .next t) :
    (∃ x, r = .ok x ∧ t = s.settleTo (drive x (unspecifiedOutputs s errOk))) ∨
      ∃ k, r = .err k ∧ t = s.reportError k := by
  cases r with
  | ok x => exact .inl ⟨x, rfl, by injection h with h; exact h.symm⟩
  | err k => exact .inr ⟨k, rfl, by injection h with h; exact h.symm⟩
  | refused why => cases h

/-- Delivering refuses exactly when the outcome is a refusal, and for its reason. -/
theorem State.deliver_refused_iff {α : Type} {s : State} {drive : α → Outputs → Outputs} {r : OpOutcome α}
    {why : Refusal} : s.deliver drive r = .refused why ↔ r = .refused why := by
  cases r <;> simp [State.deliver]

/-- Delivering never faults. -/
theorem State.deliver_not_fault {α : Type} {s : State} {drive : α → Outputs → Outputs} {r : OpOutcome α}
    {f : Fault} : s.deliver drive r ≠ .fault f := by
  cases r <;> simp [State.deliver]

/-- Whatever is delivered, the inputs keep what they held and one evaluation is counted. -/
theorem State.deliver_frame {α : Type} {s t : State} {drive : α → Outputs → Outputs} {r : OpOutcome α}
    (h : s.deliver drive r = .next t) : t.inputs = s.inputs ∧ t.evaluations = s.evaluations + 1 := by
  obtain ⟨x, -, rfl⟩ | ⟨k, -, rfl⟩ := State.deliver_next_cases h <;> simp

end Sys2Proof.Machine
end

