-- ==== Sys2Proof/Laws/Decoder.lean ====
section
/-! SUPPORT. The decoder in plain arithmetic. -/

namespace Sys2Proof.Machine

/-- Both fields are 0 exactly for the zero pattern, among admitted patterns. -/
theorem fields_zero_iff {p : Packed} (h : bit15 p = false) :
    (exponentField p = 0 ∧ mantissaField p = 0) ↔ p.toNat = 0 := by
  rw [bit15_eq_false_iff] at h
  rw [← BitVec.toNat_inj, ← BitVec.toNat_inj, exponentField_toNat, mantissaField_toNat]
  simp
  omega

theorem decodedSig_toNat (p : Packed) :
    (decodedSig p).toNat =
      if exponentField p = 0 ∧ mantissaField p = 0 then 0 else 1024 + (mantissaField p).toNat := by
  have hm := (mantissaField p).isLt
  rw [decodedSig, significand_eq]
  split
  · rfl
  · rw [BitVec.toNat_ofNat]
    omega

theorem decodedExp_toInt (p : Packed) : (decodedExp p).toInt = ((exponentField p).toNat : Int) - 25 := by
  have he := (exponentField p).isLt
  rw [decodedExp, BitVec.toInt_ofInt]
  simp only [Int.bmod]
  omega

theorem decodePacked_admitted {p : Packed} (h : bit15 p = false) :
    decodePacked p = .ok (decodedSig p, decodedExp p) := by
  rw [decodePacked, requireBit15Clear_of_clear h]

theorem decodePacked_refused {p : Packed} (h : bit15 p = true) : decodePacked p = .refused .bit15Set := by
  rw [decodePacked, requireBit15Clear_of_set h]

end Sys2Proof.Machine
end

