-- ==== Sys2Proof/Laws/Detector.lean ====
section
/-! SUPPORT. The scan finds the highest set bit, and there is only one. -/

namespace Sys2Proof.Machine

/-- Two indices that bracket one number are equal. -/
theorem bracket_unique {n i j : Nat} (hi : 2 ^ i ≤ n) (hi' : n < 2 ^ (i + 1)) (hj : 2 ^ j ≤ n)
    (hj' : n < 2 ^ (j + 1)) : i = j := by
  have h1 := (Nat.pow_lt_pow_iff_right (by decide : 1 < 2)).1 (lt_of_le_of_lt hi hj')
  have h2 := (Nat.pow_lt_pow_iff_right (by decide : 1 < 2)).1 (lt_of_le_of_lt hj hi')
  omega

theorem topSetBit_spec {w : Nat} (v : BitVec w) (hv : 0 < v.toNat) :
    ∀ n, v.toNat < 2 ^ n → topSetBit v n < n ∧ 2 ^ topSetBit v n ≤ v.toNat ∧ v.toNat < 2 ^ (topSetBit v n + 1)
  | 0, h => by omega
  | n + 1, h => by
    rw [topSetBit]
    split
    case isTrue hb =>
      exact ⟨Nat.lt_succ_self n, Nat.ge_two_pow_of_testBit hb, h⟩
    case isFalse hb =>
      have hlt : v.toNat < 2 ^ n := by
        rw [BitVec.getLsbD, Nat.testBit_eq_decide_div_mod_eq, decide_eq_true_iff] at hb
        have hq : v.toNat / 2 ^ n < 2 := by
          rw [Nat.div_lt_iff_lt_mul (Nat.two_pow_pos n)]
          rw [Nat.pow_succ] at h
          omega
        have hz : v.toNat / 2 ^ n = 0 := by
          generalize v.toNat / 2 ^ n = q at hq hb
          omega
        exact (Nat.div_eq_zero_iff_lt (Nat.two_pow_pos n)).1 hz
      obtain ⟨h1, h2, h3⟩ := topSetBit_spec v hv n hlt
      exact ⟨by omega, h2, h3⟩

@[simp] theorem highestSetBitIndex_zero {w : Nat} :
    highestSetBitIndex (0#w) = .err .preconditionError := by
  simp [highestSetBitIndex]

/-- The detector of a width that has an index of five bits: the bracketing index, below the width. -/
theorem highestSetBitIndex_ok {w : Nat} (hw : w ≤ 32) {v : BitVec w} (hv : v ≠ 0) :
    ∃ i : BitVec 5, highestSetBitIndex v = .ok i ∧ i.toNat < w ∧ 2 ^ i.toNat ≤ v.toNat ∧
      v.toNat < 2 ^ (i.toNat + 1) := by
  have hpos : 0 < v.toNat := by
    rcases Nat.eq_zero_or_pos v.toNat with h | h
    · exact absurd (BitVec.eq_of_toNat_eq (by simpa using h)) hv
    · exact h
  obtain ⟨h1, h2, h3⟩ := topSetBit_spec v hpos w v.isLt
  have hi : (BitVec.ofNat 5 (topSetBit v w)).toNat = topSetBit v w := by
    rw [BitVec.toNat_ofNat, Nat.mod_eq_of_lt]
    omega
  exact ⟨BitVec.ofNat 5 (topSetBit v w), by rw [highestSetBitIndex, if_neg hv], by rw [hi]; exact h1,
    by rw [hi]; exact h2, by rw [hi]; exact h3⟩

/-- The bracketing index is the detector's answer. -/
theorem highestSetBitIndex_eq {w : Nat} (hw : w ≤ 32) {v : BitVec w} {i : BitVec 5} (h1 : 2 ^ i.toNat ≤ v.toNat)
    (h2 : v.toNat < 2 ^ (i.toNat + 1)) : highestSetBitIndex v = .ok i := by
  have hv : v ≠ 0 := by
    rintro rfl
    have := Nat.two_pow_pos i.toNat
    simp at h1
  obtain ⟨j, hj, -, h3, h4⟩ := highestSetBitIndex_ok hw hv
  rw [hj, BitVec.eq_of_toNat_eq (bracket_unique h3 h4 h1 h2)]

end Sys2Proof.Machine
end

