-- ==== Sys2Proof/Laws/Encoder.lean ====
section
/-! SUPPORT. The encoder in plain arithmetic. -/

namespace Sys2Proof.Machine

/-- Taking the highest set bit off a number. -/
theorem xor_highest_bit {n i : Nat} (h1 : 2 ^ i ≤ n) (h2 : n < 2 ^ (i + 1)) : n ^^^ (1 <<< i) = n - 2 ^ i := by
  obtain ⟨r, rfl⟩ := Nat.exists_eq_add_of_le h1
  have hr : r < 2 ^ i := by rw [Nat.pow_succ] at h2; omega
  have hor : 2 ^ i + r = 2 ^ i ^^^ r := by
    apply Nat.eq_of_testBit_eq
    intro j
    rw [Nat.testBit_xor, Nat.testBit_two_pow]
    rcases Nat.lt_trichotomy j i with hj | rfl | hj
    · rw [Nat.testBit_two_pow_add_gt hj]
      have : i ≠ j := by omega
      simp [this]
    · rw [Nat.testBit_two_pow_add_eq, Nat.testBit_lt_two_pow hr]
      simp
    · have h3 : r.testBit j = false :=
        Nat.testBit_lt_two_pow (lt_trans hr (Nat.pow_lt_pow_right (by decide) hj))
      have h4 : (2 ^ i + r).testBit j = false := by
        apply Nat.testBit_lt_two_pow
        calc 2 ^ i + r < 2 ^ (i + 1) := by rw [Nat.pow_succ]; omega
          _ ≤ 2 ^ j := Nat.pow_le_pow_right (by decide) hj
      have : i ≠ j := by omega
      simp [h3, h4, this]
  rw [Nat.one_shiftLeft, Nat.add_sub_cancel_left, hor, Nat.xor_comm, ← Nat.xor_assoc, Nat.xor_self, Nat.zero_xor]

/-- The mantissa: the bits below the hidden bit, scaled to ten, the fraction dropped (R124 to R126). -/
theorem encodedMantissa_toNat {n i : Nat} (h1 : 2 ^ i ≤ n) (h2 : n < 2 ^ (i + 1)) :
    (encodedMantissa n i).toNat = (n - 2 ^ i) * 1024 / 2 ^ i := by
  have hr : n - 2 ^ i < 2 ^ i := by rw [Nat.pow_succ] at h2; omega
  have hpos := Nat.two_pow_pos i
  have hlt : (n - 2 ^ i) * 1024 / 2 ^ i < 1024 := by
    rw [Nat.div_lt_iff_lt_mul hpos]
    nlinarith
  have hshift : shiftBy (n - 2 ^ i) ((10 : Int) - i) = (n - 2 ^ i) * 1024 / 2 ^ i := by
    rw [shiftBy]
    split
    case isTrue h =>
      have e : ((10 : Int) - i).toNat = 10 - i := by omega
      have hp : 1024 = 2 ^ (10 - i) * 2 ^ i := by
        rw [← Nat.pow_add]
        have : 10 - i + i = 10 := by omega
        rw [this]
      rw [e, Nat.shiftLeft_eq, hp, ← Nat.mul_assoc, Nat.mul_div_cancel _ hpos]
    case isFalse h =>
      have e : (-((10 : Int) - i)).toNat = i - 10 := by omega
      have hp : 2 ^ i = 2 ^ (i - 10) * 1024 := by
        rw [show (1024 : Nat) = 2 ^ 10 from rfl, ← Nat.pow_add]
        congr 1
        omega
      rw [e, Nat.shiftRight_eq_div_pow]
      generalize n - 2 ^ i = r
      rw [hp, Nat.mul_div_mul_right _ _ (by decide)]
  rw [encodedMantissa, xor_highest_bit h1 h2, Config.mantissaLength]
  simp only [Nat.cast_ofNat]
  rw [hshift, Nat.and_two_pow_sub_one_eq_mod, BitVec.toNat_ofNat]
  omega

@[simp] theorem encodeValue_zero : encodeValue 0 = .ok 0 := rfl

/-- From 65536 up the encoder reports RangeError (R122). -/
theorem encodeValue_large {v : IntWord} (h : 65536 ≤ v.toNat) : encodeValue v = .err .rangeError := by
  have hv : v ≠ 0 := by rintro rfl; simp at h
  obtain ⟨i, hi, -, h1, h2⟩ := highestSetBitIndex_ok (by decide) hv
  have h16 : 16 ≤ i.toNat := by
    by_contra hc
    have : 2 ^ (i.toNat + 1) ≤ 2 ^ 16 := Nat.pow_le_pow_right (by decide) (by omega)
    omega
  simp only [encodeValue, hv, if_false, hi, OpOutcome.bind, encodeFields]
  rw [if_pos]
  simp only [Config.bias, Config.exponentLength, Config.encoderMaxExponent]
  omega

/-- Below 65536 a non-zero value has exponent `15 + msb` and the scaled mantissa (R121). -/
theorem encodeValue_small {v : IntWord} (h0 : 0 < v.toNat) (h : v.toNat < 65536) :
    ∃ p msb, encodeValue v = .ok p ∧ bit15 p = false ∧ msb < 16 ∧ 2 ^ msb ≤ v.toNat ∧ v.toNat < 2 ^ (msb + 1) ∧
      (exponentField p).toNat = 15 + msb ∧ (mantissaField p).toNat = (v.toNat - 2 ^ msb) * 1024 / 2 ^ msb := by
  have hv : v ≠ 0 := by rintro rfl; simp at h0
  obtain ⟨i, hi, -, h1, h2⟩ := highestSetBitIndex_ok (by decide) hv
  have h16 : i.toNat < 16 := by
    by_contra hc
    have : 2 ^ 16 ≤ 2 ^ i.toNat := Nat.pow_le_pow_right (by decide) (by omega)
    omega
  refine ⟨compose (BitVec.ofNat 5 (Config.bias + i.toNat)) (encodedMantissa v.toNat i.toNat), i.toNat, ?_,
    bit15_compose _ _, h16, h1, h2, ?_, ?_⟩
  · simp only [encodeValue, hv, if_false, hi, OpOutcome.bind, encodeFields]
    rw [if_neg]
    simp only [Config.bias, Config.exponentLength, Config.encoderMaxExponent]
    omega
  · rw [exponentField_compose, BitVec.toNat_ofNat]
    simp only [Config.bias, Config.exponentLength]
    omega
  · rw [mantissaField_compose, encodedMantissa_toNat h1 h2]

end Sys2Proof.Machine
end

