-- ==== Sys2Proof/Laws/Multiplier.lean ====
section
/-! SUPPORT. The multiplier in plain arithmetic. -/

namespace Sys2Proof.Machine

/-- The product needs 21 or 22 bits (R163). -/
theorem rawProduct_bounds (a b : Packed) : 2 ^ 20 ≤ rawProduct a b ∧ rawProduct a b ≤ 2047 * 2047 := by
  have ha := (mantissaField a).isLt
  have hb := (mantissaField b).isLt
  rw [rawProduct, significand_eq, significand_eq]
  constructor
  · nlinarith
  · exact Nat.mul_le_mul (by omega) (by omega)

/-- The detector's answer on the product: 21 when it carries, else 20 (R163, R165). -/
theorem product_index (a b : Packed) :
    highestSetBitIndex (BitVec.ofNat Config.productWidth (rawProduct a b)) =
      .ok (if 2097152 ≤ rawProduct a b then 21#5 else 20#5) := by
  obtain ⟨h1, h2⟩ := rawProduct_bounds a b
  have hv : (BitVec.ofNat Config.productWidth (rawProduct a b)).toNat = rawProduct a b := by
    rw [BitVec.toNat_ofNat, Nat.mod_eq_of_lt]
    rw [show Config.productWidth = 22 from rfl]
    omega
  apply highestSetBitIndex_eq (by decide)
  · rw [hv]
    split <;> simp <;> omega
  · rw [hv]
    split <;> simp <;> omega

/-- The mantissa of the normalised product: an 11-bit window less its hidden bit (R166). -/
theorem normalizedMantissa_toNat {n i : Nat} (h1 : 1024 ≤ n / 2 ^ (i - 10)) (h2 : n / 2 ^ (i - 10) < 2048) :
    (normalizedMantissa n i).toNat = n / 2 ^ (i - 10) - 1024 := by
  have hmask : (~~~(1#11 <<< Config.mantissaLength)).toNat = 2 ^ 10 - 1 := by decide
  rw [normalizedMantissa, BitVec.toNat_setWidth, BitVec.toNat_and, hmask, Nat.and_two_pow_sub_one_eq_mod,
    BitVec.toNat_ofNat, Nat.shiftRight_eq_div_pow]
  simp only [Config.mantissaLength]
  omega

/-- The exponent of the product in the order of R164 and R165. -/
def productExponent (a b : Packed) : Int :=
  ((exponentField a).toNat : Int) + (exponentField b).toNat - 15 + (if 2097152 ≤ rawProduct a b then 1 else 0)

theorem finalExponent_eq (a b : Packed) :
    finalExponent a b (if 2097152 ≤ rawProduct a b then 21#5 else 20#5).toNat = productExponent a b := by
  simp only [finalExponent, productExponent, rawExponent, Config.bias, Config.exponentLength, Config.mantissaLength]
  split <;> simp

/-- Outside the field's range the multiplier reports RangeError (R168). -/
theorem multiply_out_of_range {a b : Packed} (ha : bit15 a = false) (hb : bit15 b = false)
    (h : productExponent a b < 0 ∨ 31 < productExponent a b) : multiply a b = .err .rangeError := by
  rw [multiply, requireBit15Clear_of_clear ha, requireBit15Clear_of_clear hb, product_index, OpOutcome.bind,
    multiplyFields, finalExponent_eq, if_pos]
  simpa [Config.maxExponentField] using h

/-- Inside it the result has that exponent, and the product's ten bits below its highest (R161). -/
theorem multiply_in_range {a b : Packed} (ha : bit15 a = false) (hb : bit15 b = false)
    (h0 : 0 ≤ productExponent a b) (h1 : productExponent a b ≤ 31) :
    ∃ p, multiply a b = .ok p ∧ bit15 p = false ∧ ((exponentField p).toNat : Int) = productExponent a b ∧
      (mantissaField p).toNat = rawProduct a b / (if 2097152 ≤ rawProduct a b then 2048 else 1024) - 1024 := by
  obtain ⟨h2, h3⟩ := rawProduct_bounds a b
  refine ⟨_, ?_, bit15_compose (BitVec.ofInt 5 (productExponent a b))
    (normalizedMantissa (rawProduct a b) (if 2097152 ≤ rawProduct a b then 21#5 else 20#5).toNat), ?_, ?_⟩
  · rw [multiply, requireBit15Clear_of_clear ha, requireBit15Clear_of_clear hb, product_index, OpOutcome.bind,
      multiplyFields, finalExponent_eq, if_neg]
    simp only [Config.maxExponentField]
    omega
  · rw [exponentField_compose, BitVec.toNat_ofInt]
    omega
  · rw [mantissaField_compose]
    by_cases hc : 2097152 ≤ rawProduct a b
    · rw [if_pos hc, if_pos hc, normalizedMantissa_toNat] <;> simp <;> omega
    · rw [if_neg hc, if_neg hc, normalizedMantissa_toNat] <;> simp <;> omega

theorem multiply_refused {a b : Packed} (h : bit15 a = true ∨ bit15 b = true) :
    multiply a b = .refused .bit15Set := by
  by_cases ha : bit15 a = true
  · rw [multiply, requireBit15Clear_of_set ha]
  · rw [multiply, requireBit15Clear_of_clear (by simpa using ha), requireBit15Clear_of_set (h.resolve_left ha)]

end Sys2Proof.Machine
end

