-- ==== Sys2Proof/Laws/Safety.lean ====
section
/-! SUPPORT. The plain-arithmetic terms of Safety.lean and the machine's own, one equal to the other. -/

namespace Sys2Proof.Safety

open Sys2Proof.Machine

theorem expOf_eq (p : Packed) : expOf p = (exponentField p).toNat := (exponentField_toNat p).symm

theorem mantOf_eq (p : Packed) : mantOf p = (mantissaField p).toNat := (mantissaField_toNat p).symm

theorem expOf_lt (p : Packed) : expOf p < 32 := Nat.mod_lt _ (by decide)

theorem mantOf_lt (p : Packed) : mantOf p < 1024 := Nat.mod_lt _ (by decide)

theorem admitted_toNat {p : Packed} (h : p.toNat < 32768) : p.toNat = expOf p * 1024 + mantOf p := by
  simp only [expOf, mantOf]
  omega

theorem productOf_eq (a b : Packed) : productOf a b = rawProduct a b := by
  simp [productOf, rawProduct, significand_eq, mantOf_eq]

theorem exponentOf_eq (a b : Packed) : exponentOf a b = productExponent a b := by
  simp [exponentOf, productExponent, carries, productOf_eq, expOf_eq]

theorem mantissaOf_eq (a b : Packed) :
    mantissaOf a b = rawProduct a b / (if 2097152 ≤ rawProduct a b then 2048 else 1024) - 1024 := by
  obtain ⟨h1, h2⟩ := rawProduct_bounds a b
  rw [mantissaOf, carries, productOf_eq]
  generalize rawProduct a b = n at *
  by_cases h : 2097152 ≤ n <;> simp [h] <;> omega

end Sys2Proof.Safety
end

