-- ==== Sys2Proof/Laws/Exec.lean ====
section
/-! SUPPORT. What each meaning answers, one equation per case of its operands. Later proofs cite these and unfold no
meaning. -/

namespace Sys2Proof.Machine

open Sys2Proof.Safety

/-- The state after an operation with a result: it is presented, its result driven, OK on `err`. -/
def State.afterOk (s : State) (i : Instr) (drive : Outputs → Outputs) : State :=
  (s.present i).settleTo (drive (unspecifiedOutputs (s.present i) errOk))

/-- The state after an operation with an error. -/
def State.afterError (s : State) (i : Instr) (k : ErrorKind) : State := (s.present i).reportError k

@[simp] theorem State.afterOk_inputs (s : State) (i : Instr) (d : Outputs → Outputs) :
    (s.afterOk i d).inputs = encodeOnto i s.inputs := rfl
@[simp] theorem State.afterOk_outputs (s : State) (i : Instr) (d : Outputs → Outputs) :
    (s.afterOk i d).outputs = d (unspecifiedOutputs (s.present i) errOk) := rfl
@[simp] theorem State.afterError_inputs (s : State) (i : Instr) (k : ErrorKind) :
    (s.afterError i k).inputs = encodeOnto i s.inputs := rfl
@[simp] theorem State.afterError_outputs (s : State) (i : Instr) (k : ErrorKind) :
    (s.afterError i k).outputs = unspecifiedOutputs (s.present i) k.code := rfl

theorem bit15_of_lt {p : Packed} (h : p.toNat < 32768) : bit15 p = false := (bit15_eq_false_iff p).2 h

theorem bit15_of_ge {p : Packed} (h : 32768 ≤ p.toNat) : bit15 p = true := by
  by_contra hc
  have := (bit15_eq_false_iff p).1 (by simpa using hc)
  omega

theorem exec_msb_of_zero (s : State) : exec (.msb 0) s = .next (s.afterError (.msb 0) .preconditionError) := rfl

theorem exec_msb_of_ne_zero {v : IntWord} (hv : v ≠ 0) (s : State) :
    ∃ i : BitVec 5, exec (.msb v) s = .next (s.afterOk (.msb v) (driveIdx i)) ∧ highestSetBitIndex v = .ok i ∧
      i.toNat < 31 ∧ 2 ^ i.toNat ≤ v.toNat ∧ v.toNat < 2 ^ (i.toNat + 1) := by
  obtain ⟨i, h, h1, h2, h3⟩ := highestSetBitIndex_ok (by decide) hv
  exact ⟨i, by simp [exec, execMsb, h, State.deliver, State.afterOk], h, h1, h2, h3⟩

theorem exec_enc_of_zero (s : State) : exec (.enc 0) s = .next (s.afterOk (.enc 0) (driveRes 0)) := rfl

theorem exec_enc_of_small {v : IntWord} (h0 : 0 < v.toNat) (h : v.toNat < 65536) (s : State) :
    ∃ p msb, exec (.enc v) s = .next (s.afterOk (.enc v) (driveRes p)) ∧ p.toNat < 32768 ∧ msb < 16 ∧
      2 ^ msb ≤ v.toNat ∧ v.toNat < 2 ^ (msb + 1) ∧ expOf p = 15 + msb ∧
      mantOf p = (v.toNat - 2 ^ msb) * 1024 / 2 ^ msb := by
  obtain ⟨p, m, h1, h2, h3, h4, h5, h6, h7⟩ := encodeValue_small h0 h
  exact ⟨p, m, by simp [exec, execEnc, h1, State.deliver, State.afterOk], (bit15_eq_false_iff p).1 h2, h3, h4, h5,
    by rw [expOf_eq, h6], by rw [mantOf_eq, h7]⟩

theorem exec_enc_of_large {v : IntWord} (hv : 65536 ≤ v.toNat) (s : State) :
    exec (.enc v) s = .next (s.afterError (.enc v) .rangeError) := by
  simp [exec, execEnc, encodeValue_large hv, State.deliver, State.afterError]

theorem exec_dec_of_admitted {p : Packed} (h : p.toNat < 32768) (s : State) :
    exec (.dec p) s = .next (s.afterOk (.dec p) (driveDec (decodedSig p, decodedExp p))) := by
  simp [exec, execDec, decodePacked_admitted (bit15_of_lt h), State.deliver, State.afterOk]

theorem exec_dec_of_bit15 {p : Packed} (h : 32768 ≤ p.toNat) (s : State) :
    exec (.dec p) s = .refused .bit15Set := by
  simp [exec, execDec, decodePacked_refused (bit15_of_ge h), State.deliver]

theorem exec_mul_of_bit15 {a b : Packed} (h : 32768 ≤ a.toNat ∨ 32768 ≤ b.toNat) (s : State) :
    exec (.mul a b) s = .refused .bit15Set := by
  simp [exec, execMul, multiply_refused (h.imp bit15_of_ge bit15_of_ge), State.deliver]

theorem exec_mul_out_of_range {a b : Packed} (ha : a.toNat < 32768) (hb : b.toNat < 32768)
    (h : exponentOf a b < 0 ∨ 31 < exponentOf a b) (s : State) :
    exec (.mul a b) s = .next (s.afterError (.mul a b) .rangeError) := by
  rw [exponentOf_eq] at h
  simp [exec, execMul, multiply_out_of_range (bit15_of_lt ha) (bit15_of_lt hb) h, State.deliver, State.afterError]

theorem exec_mul_in_range {a b : Packed} (ha : a.toNat < 32768) (hb : b.toNat < 32768) (h0 : 0 ≤ exponentOf a b)
    (h1 : exponentOf a b ≤ 31) (s : State) :
    ∃ p, exec (.mul a b) s = .next (s.afterOk (.mul a b) (driveRes p)) ∧ multiply a b = .ok p ∧ p.toNat < 32768 ∧
      (expOf p : Int) = exponentOf a b ∧ mantOf p = mantissaOf a b := by
  rw [exponentOf_eq] at *
  obtain ⟨p, h, h2, h3, h4⟩ := multiply_in_range (bit15_of_lt ha) (bit15_of_lt hb) h0 h1
  exact ⟨p, by simp [exec, execMul, h, State.deliver, State.afterOk], h, (bit15_eq_false_iff p).1 h2,
    by rw [expOf_eq, h3], by rw [mantOf_eq, h4, mantissaOf_eq]⟩

end Sys2Proof.Machine
end

