-- ==== Sys2Proof/Laws/PerInstr.lean ====
section
/-! SUPPORT. Per operation: what presenting it on the inputs does. -/

namespace Sys2Proof.Laws.Selects

/-- Presented on any inputs, the operation is selected by its code (R76), and presenting it twice is presenting it once. -/
def Statement (i : Instr) : Prop :=
  ∀ x : Inputs, (encodeOnto i x).op = i.opSelect ∧ encodeOnto i (encodeOnto i x) = encodeOnto i x

theorem msb (v : IntWord) : Statement (.msb v) := fun _ => ⟨rfl, rfl⟩
theorem enc (value : IntWord) : Statement (.enc value) := fun _ => ⟨rfl, rfl⟩
theorem dec (p : Packed) : Statement (.dec p) := fun _ => ⟨rfl, rfl⟩
theorem mul (a b : Packed) : Statement (.mul a b) := fun _ => ⟨rfl, rfl⟩

end Sys2Proof.Laws.Selects
end

