-- ==== Sys2Proof/Laws/Value.lean ====
section
/-! SUPPORT. The value of a pattern: the formula of R63 for an admitted one, a free value for one with bit 15 set. -/

namespace Sys2Proof.Machine

/-- R63, for a pattern with bit 15 clear. -/
theorem packedValue_admitted {p : Packed} (h : bit15 p = false) :
    packedValue p =
      if exponentField p = 0 ∧ mantissaField p = 0 then 0
      else (1 + ((mantissaField p).toNat : ℚ) / 1024) * 2 ^ (((exponentField p).toNat : ℤ) - 15) := by
  simp [packedValue, h]

/-- A pattern with bit 15 set has no known value (R62). -/
theorem packedValue_of_bit15 {p : Packed} (h : bit15 p = true) : packedValue p = Config.freeValue p := by
  simp [packedValue, h]

end Sys2Proof.Machine
end

