-- ==== Sys2Proof/Machine/Program.lean ====
section
/-! DEFINITION. The line notation of R84: straight-line programs over the four operations, each line evaluated on the
wrapper by `exec`. It is the spec's notation for test programs (92_eei_decisions.md D11); the block itself runs no
program (R23). -/

namespace Sys2Proof.Machine

/-- The names bound so far with their results, the latest first. A program starts with none (95_test_vectors.md). -/
abbrev Bindings := List (Name × Result)

/-- A packed operand of a line as a word: a literal, or a name bound by an earlier line to a packed result (R84). -/
def resolveOperand (env : Bindings) : Operand → Except Refusal Packed
  | .literal p => .ok p
  | .name n =>
    match env.lookup n with
    | some (.packed p) => .ok p
    | _ => .error .illFormedLine

/-- An integer literal as a port value: 2^31 or more cannot be presented and is refused (R84, R120, R204). -/
def resolveLiteral (n : Nat) : Except Refusal IntWord :=
  if n < 2 ^ 31 then .ok (BitVec.ofNat 31 n) else .error .valueTooWide

/-- The operation that a line's right side stands for. -/
def resolve (env : Bindings) : LineOp → Except Refusal Instr
  | .msb n => (resolveLiteral n).map .msb
  | .enc n => (resolveLiteral n).map .enc
  | .dec p => (resolveOperand env p).map .dec
  | .mul a b => do
    let x ← resolveOperand env a
    let y ← resolveOperand env b
    return .mul x y

/-- The state that the line notation names after an evaluation. DESIGN CHOICE (notes/assumptions/12.md): after a refusal,
for which the spec specifies no pins (R13, R204, R234), it is the old state, with the old inputs, outputs and count. It is
no claim about what the pins show then. -/
def stateAfter (s : State) : Host.Outcome State Fault Refusal → State
  | .next t => t
  | .fault _ => s
  | .refused _ => s

/-- One line: its outcome, and the state it leaves (R84). A refused line leaves the old state, a DESIGN CHOICE
(notes/assumptions/12.md). -/
def evalLine (env : Bindings) (l : Line) (s : State) : State × Except Fault (OpOutcome Result) :=
  if (env.lookup l.name).isSome then (s, .ok (.refused .illFormedLine))
  else
    match resolve env l.rhs with
    | .ok i => (stateAfter s (exec i s), observedOutcome (exec i s))
    | .error why => (s, .ok (.refused why))

/-- How a program ends: the bound names, the final outcome when a line did not give a result, and the state. -/
structure ProgramEnd where
  bindings : Bindings
  /-- `none` when every line gave a result; else the outcome of the line the program stopped at -/
  stoppedWith : Option (Except Fault (OpOutcome Result))
  /-- the state that the last line evaluated left; after a refused line the one before it, a DESIGN CHOICE
  (notes/assumptions/12.md) -/
  state : State
  deriving Repr

/-- The lines in order. A line whose outcome is not `ok` stops the program with that outcome, and no later line is
evaluated (R84). -/
def evalFrom (env : Bindings) : Program → State → ProgramEnd
  | [], s => { bindings := env, stoppedWith := none, state := s }
  | l :: rest, s =>
    match evalLine env l s with
    | (t, .ok (.ok r)) => evalFrom ((l.name, r) :: env) rest t
    | (t, o) => { bindings := env, stoppedWith := some o, state := t }

/-- A program from the empty bindings (R84, 95_test_vectors.md). -/
def evalProgram (p : Program) (s : State) : ProgramEnd := evalFrom [] p s

end Sys2Proof.Machine
end

