-- ==== Sys2Proof/Tests/Slice0.lean ====
section
/-! SUPPORT. Small tests with results taken from spec/ (the vector's name stands at each), the smoke tests of the checks on
syntax, and for every statement with hypotheses a theorem that concrete inputs meet them. -/

namespace Sys2Proof.Tests

open Sys2Proof.Machine Sys2Proof.Safety

/-- Whether an evaluation answers a next state with a property. -/
def answers (o : Host.Outcome State Fault Refusal) (f : State → Bool) : Bool :=
  match o with
  | .next t => f t
  | .fault _ => false
  | .refused _ => false

/-- A state other than the reset state: inputs and outputs hold remains of something else. -/
def used : State where
  inputs := { op := 0b10#2, v := 77, a := 0x4B80, b := 0x8001 }
  outputs := { idx := 9, res := 0x5000, decSig := 1920, decExp := 0x39, err := 0b00#2 }
  evaluations := 41

/-! ### The checks on syntax refuse ill-formed terms -/

theorem test_wf_refuses_dec_bit15 : (Instr.dec 0x8000).wf = false := by decide
theorem test_wf_refuses_mul_bit15_in_a : (Instr.mul 0x8000 0x3C00).wf = false := by decide
theorem test_wf_refuses_mul_bit15_in_b : (Instr.mul 0x3C00 0xBC00).wf = false := by decide
theorem test_wf_refuses_wide_literal_of_msb : Program.wf [⟨0, .msb (2 ^ 31)⟩] = false := by decide
theorem test_wf_refuses_wide_literal_of_enc : Program.wf [⟨0, .enc (2 ^ 31)⟩] = false := by decide
theorem test_wf_refuses_unbound_name : Program.wf [⟨0, .dec (.name 1)⟩] = false := by decide
theorem test_wf_refuses_index_name : Program.wf [⟨0, .msb 1000⟩, ⟨1, .dec (.name 0)⟩] = false := by decide
theorem test_wf_refuses_unbound_second_operand : Program.wf [⟨0, .mul (.literal 0) (.name 0)⟩] = false := by decide
theorem test_wf_refuses_name_bound_twice : Program.wf [⟨0, .enc 3⟩, ⟨0, .enc 5⟩] = false := by decide

/-- The form of program P1 of 95_test_vectors.md is allowed. -/
theorem test_wf_allows_P1 :
    Program.wf [⟨0, .enc 3⟩, ⟨1, .enc 5⟩, ⟨2, .mul (.name 0) (.name 1)⟩, ⟨3, .dec (.name 2)⟩] = true := by decide

/-! ### Words written out from R76 (`op`) and the encodings of the programs in 95_test_vectors.md -/

/-- P5 line 1: `op = 0b00`, `v = 0x3E8`. -/
theorem test_decode_msb : decodeTableWord 65 (0b00 + 0x3E8 * 2 ^ 2) = some (.msb 1000) := by decide
/-- P1 line 1: `op = 0b01`, `v = 3`. -/
theorem test_decode_enc : decodeTableWord 65 (0b01 + 0x3 * 2 ^ 2) = some (.enc 3) := by decide
/-- P1 line 4: `op = 0b10`, `a = 0x4B80`; the inputs DEC does not read are all ones. -/
theorem test_decode_dec :
    decodeTableWord 65 (0b10 + 0x7FFFFFFF * 2 ^ 2 + 0x4B80 * 2 ^ 33 + 0xFFFF * 2 ^ 49) = some (.dec 0x4B80) := by decide
/-- P1 line 3: `op = 0b11`, `a = 0x4200`, `b = 0x4500`. -/
theorem test_decode_mul :
    decodeTableWord 65 (0b11 + 0x4200 * 2 ^ 33 + 0x4500 * 2 ^ 49) = some (.mul 0x4200 0x4500) := by decide
/-- No port carries a bit above bit 64 (R78). -/
theorem test_decode_rejects_bit_65 : decodeTableWord 72 (2 ^ 65) = none := by decide
/-- Nothing shorter than the ports' image is read (R83). -/
theorem test_decode_rejects_short : decodeBytes [0, 0] = .error .wrongLength := by decide

/-! ### One evaluation of each operation -/

/-- L1-1, MSB-5. -/
theorem test_msb_8 : answers (exec (.msb 8) used) (fun t => t.outputs.err == 0b00 && t.outputs.idx == 3) = true := by
  decide
/-- MSB-1, P6. -/
theorem test_msb_0 : observedOutcome (exec (.msb 0) used) = .ok (.err .preconditionError) := by rfl
/-- L1-3, ENC-19 (90_conflicts.md C2): the low bit is dropped. -/
theorem test_enc_2049 : answers (exec (.enc 2049) used) (fun t => t.outputs.err == 0b00 && t.outputs.res == 0x6800) = true := by
  decide
/-- ENC-30, P7: the first value that does not fit. -/
theorem test_enc_65536 : answers (exec (.enc 65536) used) (fun t => t.outputs.err == 0b10) = true := by decide
/-- DEC-2: no subnormals; `dec_exp = -25` is `0b100111`. -/
theorem test_dec_0001 :
    answers (exec (.dec 0x0001) used)
      (fun t => t.outputs.err == 0b00 && t.outputs.decSig == 1025 && t.outputs.decExp == 0b100111) = true := by decide
/-- DEC-24, P5 line 4. -/
theorem test_dec_bit15 : observedOutcome (exec (.dec 0x8000) used) = .ok (.refused .bit15Set) := by rfl
/-- MUL-11: a carry, and low bits dropped. -/
theorem test_mul_carry :
    answers (exec (.mul 0x3FFF 0x3FFF) used) (fun t => t.outputs.err == 0b00 && t.outputs.res == 0x43FE) = true := by
  decide
/-- MUL-17: the carry makes the exponent 32. -/
theorem test_mul_carry_overflow : answers (exec (.mul 0x5E00 0x5E00) used) (fun t => t.outputs.err == 0b10) = true := by
  decide

/-- MSB-15: the multiplier's width. -/
theorem test_detector_22 : highestSetBitIndex (0x3FF001#22) = .ok 21 := by decide
/-- `0b11` on `err` is a fault of the hardware (93_implementation_defined.md, row 15). -/
theorem test_reserved_code_is_a_fault :
    State.readOutcome { used with outputs := { used.outputs with err := 0b11 } } = .error .errReserved := by rfl
/-- R120: a literal that no port carries is refused. -/
theorem test_line_with_wide_literal :
    (evalLine [] ⟨0, .enc (2 ^ 31)⟩ used).2 = .ok (.refused .valueTooWide) := by rfl
/-- R84: a name that stands for an index is no packed operand. -/
theorem test_line_with_index_operand :
    (evalLine [(0, .index 9)] ⟨1, .dec (.name 0)⟩ used).2 = .ok (.refused .illFormedLine) := by rfl

/-! ### The hypotheses of each statement can be met -/

theorem test_witness_InputsPresentOneOperation :
    (∀ op : OpSelect, op = 0b00#2 ∨ op = 0b01#2 ∨ op = 0b10#2 ∨ op = 0b11#2) ∧
    encodeOnto (.dec 0x4B80) used.inputs = used.inputs := by decide

theorem test_witness_WrapperShowsTheSelectedSubBlock :
    answers (exec (.dec 0x4B80) used) (fun t => t.inputs.op == 0b10) = true := by decide

theorem test_witness_StepRunsPresentedOperation :
    decode used.inputs = .dec 0x4B80 ∧ decodeTableWord 8 0b11 = some (.mul 0 0) := by decide

/-- A next state, from reset and from a used state, by exec and by step. -/
theorem test_witness_EveryStepLeavesPinsThatMeetTheRules :
    answers (exec (.mul 0x3FFF 0x3FFF) used) (fun _ => true) = true ∧ answers (step used) (fun _ => true) = true ∧
    answers (step State.reset) (fun _ => true) = true := by decide

theorem test_witness_BitFifteenClear :
    answers (exec (.enc 65535) used) (fun t => t.outputs.err == 0b00) = true ∧
    answers (exec (.mul 0x7FFF 0x3C00) used) (fun t => t.outputs.err == 0b00) = true ∧
    32768 ≤ (0x8000#16).toNat ∧ 32768 ≤ (0xFFFF#16).toNat := by decide

/-- Each code occurs: `0b01`, `0b10` from ENC at its boundary, `0b10` from MUL on both sides, OK. -/
theorem test_witness_EveryErrorCodeHasItsCause :
    answers (exec (.msb 0) used) (fun t => t.outputs.err == 0b01) = true ∧
    answers (exec (.enc 65536) used) (fun t => t.outputs.err == 0b10) = true ∧
    answers (exec (.mul 0x1C00 0x1C00) used) (fun t => t.outputs.err == 0b10) = true ∧ exponentOf 0x1C00 0x1C00 = -1 ∧
    answers (exec (.mul 0x5C00 0x6000) used) (fun t => t.outputs.err == 0b10) = true ∧ exponentOf 0x5C00 0x6000 = 32 ∧
    answers (exec (.enc 65535) used) (fun t => t.outputs.err == 0b00) = true := by decide

/-- Two states of one operation that differ in an unread input, in the outputs and in the count. -/
theorem test_witness_OutcomeDependsOnlyOnTheInputsRead :
    decode used.inputs = decode { op := 0b10#2, v := 0, a := 0x4B80, b := 0 } ∧
    used.inputs ≠ { op := 0b10#2, v := 0, a := 0x4B80, b := 0 } := by decide

theorem test_witness_RepeatedStep :
    answers (step used) (fun _ => true) = true ∧
    answers (step State.reset) (fun t => t.outputs.err == 0b01) = true := by decide

theorem test_witness_EvaluationKeepsTheInputs :
    answers (exec (.msb 0) used) (fun t => t.inputs.b == 0x8001) = true ∧
    answers (exec (.enc 0) used) (fun t => t.inputs.a == 0x4B80) = true ∧
    answers (exec (.dec 0) used) (fun t => t.inputs.v == 77) = true ∧
    answers (exec (.mul 0x3C00 0x3C00) used) (fun t => t.inputs.v == 77) = true := by decide

/-- An error with `op` MSB, and OK with each other `op`, so that each clause has a case. -/
theorem test_witness_UndefinedResultPins :
    answers (exec (.msb 0) used) (fun t => t.inputs.op == 0b00 && t.outputs.err != 0b00) = true ∧
    answers (exec (.msb 1) used) (fun t => t.inputs.op == 0b00 && t.outputs.err == 0b00) = true ∧
    answers (exec (.enc 1) used) (fun t => t.inputs.op == 0b01 && t.outputs.err == 0b00) = true ∧
    answers (exec (.dec 1) used) (fun t => t.inputs.op == 0b10 && t.outputs.err == 0b00) = true ∧
    answers (exec (.mul 0x3C00 0x3C00) used) (fun t => t.inputs.op == 0b11 && t.outputs.err == 0b00) = true := by decide

/-- The narrowest and the widest detector, each with 0 and with its top bit. -/
theorem test_witness_MsbGivesTheHighestSetBit :
    (1 : Nat) ≤ 1 ∧ (1 : Nat) ≤ 32 ∧ (32 : Nat) ≤ 32 ∧ (1#1 ≠ 0) ∧ (0x80000000#32 ≠ 0) ∧ (0x40000000#31 ≠ 0) := by decide

/-- The narrowest and the widest width. -/
theorem test_witness_MsbOfZeroIsPreconditionError : (1 : Nat) ≤ 1 ∧ (1 : Nat) ≤ 32 ∧ (1 : Nat) ≤ 32 ∧ (32 : Nat) ≤ 32 := by decide

theorem test_witness_DetectorWidths : (22 : Nat) ≤ 31 ∧ (31 : Nat) ≤ 32 ∧ (1#22 ≠ 0) := by decide

/-- Each clause at its boundary: 0; `msb` 0, 10, 11 and 15; 65536. -/
theorem test_witness_EncPacksByTruncation :
    (0#31).toNat = 0 ∧ (2 ^ 0 ≤ (1#31).toNat ∧ (1#31).toNat < 2 ^ 1) ∧
    (2 ^ 10 ≤ (2047#31).toNat ∧ (2047#31).toNat < 2 ^ 11) ∧ (2 ^ 11 ≤ (2048#31).toNat ∧ (2048#31).toNat < 2 ^ 12) ∧
    (2 ^ 15 ≤ (65535#31).toNat ∧ (65535#31).toNat < 2 ^ 16 ∧ (65535#31).toNat < 65536) ∧
    65536 ≤ (65536#31).toNat := by decide

theorem test_witness_EncRangeError :
    65536 ≤ (65536#31).toNat ∧ highestSetBitIndex (65536#31) = .ok 16 ∧
    answers (exec (.enc 65535) used) (fun t => t.outputs.err == 0b00) = true := by decide

theorem test_witness_EncThenDec :
    (2047#31).toNat ≤ 2047 ∧ (2048 ≤ (2048#31).toNat ∧ 2 ^ 11 ≤ (2048#31).toNat ∧ (2048#31).toNat < 2 ^ 12) ∧
    ((65535#31).toNat ≤ 65535 ∧ 2 ^ 15 ≤ (65535#31).toNat ∧ (65535#31).toNat < 2 ^ 16) ∧
    ((0#31).toNat ≤ (65535#31).toNat) := by decide

theorem test_witness_EncResultFieldBounds :
    answers (exec (.enc 0) used) (fun t => t.outputs.err == 0b00) = true ∧
    answers (exec (.enc 1) used) (fun t => t.outputs.err == 0b00) = true := by decide

theorem test_witness_Dec :
    (0x7FFF#16).toNat < 32768 ∧ 32768 ≤ (0x8000#16).toNat ∧ (1 ≤ (0x0001#16).toNat ∧ (0x03FF#16).toNat ≤ 0x03FF) ∧
    (0x7C00 ≤ (0x7C00#16).toNat ∧ (0x7FFF#16).toNat ≤ 0x7FFF) := by decide

/-- `0x3C00`, the encoding of 1, has the value 1 (R63); the same fields with bit 15 set have no known value (R62). -/
theorem test_packedValue :
    packedValue 0x3C00#16 = 1 ∧ packedValue 0xBC00#16 = Config.freeValue 0xBC00#16 := by
  refine ⟨?_, packedValue_of_bit15 (by decide)⟩
  rw [packedValue_admitted (by decide), if_neg (by decide),
    show (mantissaField 0x3C00#16).toNat = 0 by decide, show (exponentField 0x3C00#16).toNat = 15 by decide]
  norm_num

theorem test_witness_AdmittedPatternsHaveDistinctValues :
    (0x7FFF#16).toNat < 32768 ∧ packedValue 0x7FFF = packedValue 0x7FFF ∧ 0x0001#16 ≠ 0x0000#16 :=
  ⟨by decide, rfl, by decide⟩

/-- Exponent 0 and 31 (MUL-25, MUL-15), one outside on each side (MUL-24, MUL-17), and both operands refused. -/
theorem test_witness_Mul :
    exponentOf 0x1E00 0x1E00 = 0 ∧ exponentOf 0x5C00 0x5C00 = 31 ∧ exponentOf 0x1C00 0x1C00 < 0 ∧
    31 < exponentOf 0x5E00 0x5E00 ∧ (0x5E00#16).toNat < 32768 ∧ 32768 ≤ (0x8000#16).toNat := by decide

/-- Two patterns, neither zero, with an inexact product that is not the zero pattern. -/
theorem test_witness_MulTruncatesTheExactProduct :
    (0x3FFF#16).toNat < 32768 ∧ 0x3FFF#16 ≠ 0x0000#16 ∧
    answers (exec (.mul 0x3FFF 0x3FFF) used) (fun t => t.outputs.err == 0b00 && t.outputs.res != 0x0000) = true ∧
    (1 ≤ (1#31).toNat ∧ (16#31).toNat ≤ 16) := by decide

theorem test_witness_MulByOneAndByZero :
    (0x7FFF#16).toNat < 32768 ∧ 15 ≤ expOf 0x3C00 ∧ expOf 0x3BFF < 15 ∧ 2 ≤ (2#31).toNat ∧ (65535#31).toNat ≤ 65535 := by
  decide

theorem test_witness_MulResultMayReadAsZero :
    exponentOf 0x2000 0x1C00 = 0 ∧ mantissaOf 0x2000 0x1C00 = 0 ∧ (0x2000#16).toNat < 32768 := by decide

end Sys2Proof.Tests
end

section
/-! SUPPORT. Which operations answer a next state (R13, R205): the well-formed ones, error outcomes included, and no
other. -/

namespace Sys2Proof

open Sys2Proof.Machine

/-- The check of bit 15 as the bound in which the laws of the operations are stated. -/
theorem Packed.admitted_iff (p : Packed) : Packed.admitted p = true ↔ p.toNat < 32768 := by
  rw [← bit15_eq_false_iff, Packed.admitted, bit15, Bool.not_eq_true']

theorem Packed.not_admitted_iff (p : Packed) : Packed.admitted p = false ↔ 32768 ≤ p.toNat := by
  rw [← Bool.not_eq_true, Packed.admitted_iff, not_lt]

theorem Instr.wf_mul_iff (a b : Packed) : (Instr.mul a b).wf = true ↔ a.toNat < 32768 ∧ b.toNat < 32768 := by
  rw [Instr.wf, Bool.and_eq_true, Packed.admitted_iff, Packed.admitted_iff]

theorem Instr.not_wf_mul_iff (a b : Packed) : (Instr.mul a b).wf = false ↔ 32768 ≤ a.toNat ∨ 32768 ≤ b.toNat := by
  rw [Instr.wf, Bool.and_eq_false_iff, Packed.not_admitted_iff, Packed.not_admitted_iff]

end Sys2Proof

namespace Sys2Proof.Machine

open Sys2Proof.Safety

theorem exec_msb_answers (v : IntWord) (s : State) : ∃ t, exec (.msb v) s = .next t := by
  by_cases hv : v = 0
  · subst hv
    exact ⟨_, exec_msb_of_zero s⟩
  · obtain ⟨i, h, -⟩ := exec_msb_of_ne_zero hv s
    exact ⟨_, h⟩

theorem exec_enc_answers (v : IntWord) (s : State) : ∃ t, exec (.enc v) s = .next t := by
  by_cases hv : v = 0
  · subst hv
    exact ⟨_, exec_enc_of_zero s⟩
  by_cases hlarge : 65536 ≤ v.toNat
  · exact ⟨_, exec_enc_of_large hlarge s⟩
  · have hpos : 0 < v.toNat := Nat.pos_of_ne_zero fun h => hv (BitVec.eq_of_toNat_eq h)
    obtain ⟨p, msb, h, -⟩ := exec_enc_of_small hpos (not_le.1 hlarge) s
    exact ⟨_, h⟩

theorem exec_mul_answers {a b : Packed} (ha : a.toNat < 32768) (hb : b.toNat < 32768) (s : State) :
    ∃ t, exec (.mul a b) s = .next t := by
  by_cases hr : exponentOf a b < 0 ∨ 31 < exponentOf a b
  · exact ⟨_, exec_mul_out_of_range ha hb hr s⟩
  · obtain ⟨hlow, hhigh⟩ := not_or.1 hr
    obtain ⟨p, h, -⟩ := exec_mul_in_range ha hb (not_lt.1 hlow) (not_lt.1 hhigh) s
    exact ⟨_, h⟩

/-- Every operation on admitted operands answers a next state, also where its outcome is an error (R207, R208). -/
theorem exec_answers_of_wf {i : Instr} (hi : i.wf = true) (s : State) : ∃ t, exec i s = .next t := by
  cases i with
  | msb v => exact exec_msb_answers v s
  | enc v => exact exec_enc_answers v s
  | dec p => exact ⟨_, exec_dec_of_admitted ((Packed.admitted_iff p).1 hi) s⟩
  | mul a b =>
    obtain ⟨ha, hb⟩ := (Instr.wf_mul_iff a b).1 hi
    exact exec_mul_answers ha hb s

/-- An operation that is not well formed is a DEC or a MUL on a packed operand with bit 15 set, and is refused (R62). -/
theorem exec_refused_of_not_wf {i : Instr} (hi : i.wf = false) (s : State) : exec i s = .refused .bit15Set := by
  cases i with
  | msb v => cases hi
  | enc v => cases hi
  | dec p => exact exec_dec_of_bit15 ((Packed.not_admitted_iff p).1 hi) s
  | mul a b => exact exec_mul_of_bit15 ((Instr.not_wf_mul_iff a b).1 hi) s

/-- Settles O8: by whether the operation is well formed. -/
theorem exactlyTheAdmittedOperationsAnswer : Obligations.ExactlyTheAdmittedOperationsAnswer := by
  intro i s
  cases hi : i.wf with
  | true =>
    obtain ⟨t, ht⟩ := exec_answers_of_wf hi s
    simp [ht]
  | false => simp [exec_refused_of_not_wf hi s]

end Sys2Proof.Machine
end

section
/-! SUPPORT. What the inputs present, for each value of `op` (R76, R78). -/

namespace Sys2Proof

theorem OpSelect.cases (op : OpSelect) : op = 0b00#2 ∨ op = 0b01#2 ∨ op = 0b10#2 ∨ op = 0b11#2 := by
  revert op
  decide

theorem decode_of_op_msb {x : Inputs} (h : x.op = 0b00#2) : decode x = .msb x.v := by
  simp [decode, h, opMsb]

theorem decode_of_op_enc {x : Inputs} (h : x.op = 0b01#2) : decode x = .enc x.v := by
  simp [decode, h, opMsb, opEnc]

theorem decode_of_op_dec {x : Inputs} (h : x.op = 0b10#2) : decode x = .dec x.a := by
  simp [decode, h, opMsb, opEnc, opDec]

theorem decode_of_op_mul {x : Inputs} (h : x.op = 0b11#2) : decode x = .mul x.a x.b := by
  simp [decode, h, opMsb, opEnc, opDec]

/-- Inputs that agree on `op` and on what the selected operation reads (R76, column 'inputs read') present the same
operation. -/
theorem decode_eq_of_read_inputs_eq {x y : Inputs} (hop : x.op = y.op)
    (hv : x.op = 0b00#2 ∨ x.op = 0b01#2 → x.v = y.v) (ha : x.op = 0b10#2 ∨ x.op = 0b11#2 → x.a = y.a)
    (hb : x.op = 0b11#2 → x.b = y.b) : decode x = decode y := by
  obtain h | h | h | h := OpSelect.cases x.op
  · rw [decode_of_op_msb h, decode_of_op_msb (hop ▸ h), hv (.inl h)]
  · rw [decode_of_op_enc h, decode_of_op_enc (hop ▸ h), hv (.inr h)]
  · rw [decode_of_op_dec h, decode_of_op_dec (hop ▸ h), ha (.inl h)]
  · rw [decode_of_op_mul h, decode_of_op_mul (hop ▸ h), ha (.inr h), hb h]

end Sys2Proof
end

section
/-! SUPPORT. What a user reads off the pins after an evaluation (R76): the outcome of the selected sub-block, so nothing of
the state before it (R20, R21). -/

namespace Sys2Proof.Machine

theorem State.readOutcome_of_errOk {s : State} (h : s.outputs.err = errOk) : s.readOutcome = .ok (.ok s.definedResult) :=
  if_pos h

theorem State.readOutcome_reportError (s : State) (k : ErrorKind) : (s.reportError k).readOutcome = .ok (.err k) := by
  cases k <;> rfl

/-- The pins show the delivered outcome, when driving a result keeps the code on `err` and puts the result on the outputs
that the selected operation defines. -/
theorem observedOutcome_deliver {α : Type} {s : State} {drive : α → Outputs → Outputs} {form : α → Result}
    (herr : ∀ x o, (drive x o).err = o.err) (hres : ∀ x o, (s.settleTo (drive x o)).definedResult = form x)
    (r : OpOutcome α) : observedOutcome (s.deliver drive r) = .ok (r.map form) := by
  cases r with
  | ok x =>
    change (s.settleTo (drive x (unspecifiedOutputs s errOk))).readOutcome = .ok (.ok (form x))
    rw [State.readOutcome_of_errOk (herr x _), hres]
  | err k => exact s.readOutcome_reportError k
  | refused why => rfl

theorem observedOutcome_exec_msb (v : IntWord) (s : State) :
    observedOutcome (exec (.msb v) s) = .ok ((highestSetBitIndex v).map .index) :=
  observedOutcome_deliver driveIdx_err (fun _ _ => rfl) _

theorem observedOutcome_exec_enc (v : IntWord) (s : State) :
    observedOutcome (exec (.enc v) s) = .ok ((encodeValue v).map .packed) :=
  observedOutcome_deliver driveRes_err (fun _ _ => rfl) _

theorem observedOutcome_exec_dec (p : Packed) (s : State) :
    observedOutcome (exec (.dec p) s) = .ok ((decodePacked p).map fun d => .real d.1 d.2) :=
  observedOutcome_deliver driveDec_err (fun _ _ => rfl) _

theorem observedOutcome_exec_mul (a b : Packed) (s : State) :
    observedOutcome (exec (.mul a b) s) = .ok ((multiply a b).map .packed) :=
  observedOutcome_deliver driveRes_err (fun _ _ => rfl) _

/-- The outcome of an operation is the same from every state: its sub-block sees the operands only. -/
theorem observedOutcome_exec_eq (i : Instr) (s t : State) : observedOutcome (exec i s) = observedOutcome (exec i t) := by
  cases i with
  | msb v => rw [observedOutcome_exec_msb, observedOutcome_exec_msb]
  | enc v => rw [observedOutcome_exec_enc, observedOutcome_exec_enc]
  | dec p => rw [observedOutcome_exec_dec, observedOutcome_exec_dec]
  | mul a b => rw [observedOutcome_exec_mul, observedOutcome_exec_mul]

theorem observedOutcome_step_eq {s t : State} (h : decode s.inputs = decode t.inputs) :
    observedOutcome (step s) = observedOutcome (step t) := by
  rw [step, step, h]
  exact observedOutcome_exec_eq _ s t

/-- Settles O12: what is read off the pins is the sub-block's outcome on its operands, which the read inputs fix. -/
theorem outcomeDependsOnlyOnTheInputsRead : Obligations.OutcomeDependsOnlyOnTheInputsRead :=
  ⟨fun _ _ => observedOutcome_step_eq, fun _ _ => decode_eq_of_read_inputs_eq, observedOutcome_exec_eq⟩

end Sys2Proof.Machine
end

section
/-! SUPPORT. Evaluating twice: an evaluation keeps the inputs, so the next one finds the same operation and shows the same
outcome, and the code on `err` is part of that outcome (R45, R74, R208). -/

namespace Sys2Proof.Machine

/-- The frame of an evaluation: the operation stands on the inputs it reads, the others keep what they held (R77), and one
evaluation is counted. -/
theorem exec_frame {i : Instr} {s t : State} (h : exec i s = .next t) :
    t.inputs = encodeOnto i s.inputs ∧ t.evaluations = s.evaluations + 1 := by
  cases i with
  | msb v => exact State.deliver_frame (s := s.present (.msb v)) h
  | enc v => exact State.deliver_frame (s := s.present (.enc v)) h
  | dec p => exact State.deliver_frame (s := s.present (.dec p)) h
  | mul a b => exact State.deliver_frame (s := s.present (.mul a b)) h

theorem step_keeps_inputs {s t : State} (h : step s = .next t) : t.inputs = s.inputs := by
  rw [(exec_frame h).1, encodeOnto_decode]

theorem wf_of_exec_answers {i : Instr} {s t : State} (h : exec i s = .next t) : i.wf = true := by
  by_contra hi
  rw [exec_refused_of_not_wf (Bool.eq_false_of_not_eq_true hi) s] at h
  cases h

/-- Whether a step answers depends on the operation on the inputs only. -/
theorem step_answers_of_inputs_eq {s t r : State} (hs : step s = .next r) (hin : t.inputs = s.inputs) :
    ∃ u, step t = .next u := by
  rw [step, hin]
  exact exec_answers_of_wf (wf_of_exec_answers hs) t

/-- The code on `err` that an outcome is read from (R74): the reserved one where the reading is a fault. A refusal is never
read off the pins and is given the reserved code too. -/
def codeShowing : Except Fault (OpOutcome Result) → ErrCode
  | .ok (.ok _) => errOk
  | .ok (.err k) => k.code
  | .ok (.refused _) => 0b11#2
  | .error _ => 0b11#2

theorem codeShowing_readOutcome (s : State) : codeShowing s.readOutcome = s.outputs.err := by
  obtain h | h | h | h := OpSelect.cases s.outputs.err <;>
    simp [State.readOutcome, h, codeShowing, errOk, ErrorKind.code]

theorem err_eq_of_readOutcome_eq {s t : State} (h : s.readOutcome = t.readOutcome) : s.outputs.err = t.outputs.err := by
  rw [← codeShowing_readOutcome, h, codeShowing_readOutcome]

/-- Settles O13: the first step keeps the inputs, so the second runs the same operation, whose outcome no other part of the
state enters. -/
theorem repeatedStepGivesTheSameOutcome : Obligations.RepeatedStepGivesTheSameOutcome := by
  intro s t hst
  have hin : t.inputs = s.inputs := step_keeps_inputs hst
  obtain ⟨u, htu⟩ := step_answers_of_inputs_eq hst hin
  have hout : u.readOutcome = t.readOutcome := by
    have := observedOutcome_step_eq (congrArg decode hin)
    rwa [htu, hst] at this
  exact ⟨u, htu, (step_keeps_inputs htu).trans hin, hout, err_eq_of_readOutcome_eq hout⟩

end Sys2Proof.Machine
end

section
/-! SUPPORT. The image of the input ports: which bytes are read, and as what (R83); that an operation's image reads back. -/

namespace Sys2Proof

/-- What is read from an image: the operation on the ports that its number stands for, when it has nine bytes and no bit
above the ports. -/
theorem decodeBytes_eq_ok_iff (bs : List Byte) (i : Instr) :
    decodeBytes bs = .ok i ↔
      (bs.length = imageBytes ∧ bytesToNat bs < 2 ^ 65) ∧ decode (Inputs.ofWord (BitVec.ofNat 65 (bytesToNat bs))) = i := by
  rw [decodeBytes]
  split
  case isTrue hlen => simp [hlen]
  case isFalse hlen =>
    split
    case isTrue hbig => exact iff_of_false nofun fun ⟨⟨_, hlt⟩, _⟩ => not_lt.2 hbig hlt
    case isFalse hbig => rw [Except.ok.injEq, and_iff_right ⟨not_not.1 hlen, not_le.1 hbig⟩]

/-- A number that fits into `n` bytes reads back from them. -/
theorem bytesToNat_natToBytes_of_lt {n x : Nat} (h : x < 256 ^ n) : bytesToNat (natToBytes n x) = x := by
  rw [bytesToNat_natToBytes, Nat.mod_eq_of_lt h]

/-- The nine bytes of a word of 65 bits read as the operation on the ports of that word. -/
theorem decodeBytes_natToBytes_word (w : BitVec 65) :
    decodeBytes (natToBytes imageBytes w.toNat) = .ok (decode (Inputs.ofWord w)) := by
  have hnum : bytesToNat (natToBytes imageBytes w.toNat) = w.toNat :=
    bytesToNat_natToBytes_of_lt (lt_trans w.isLt (by decide))
  rw [decodeBytes_eq_ok_iff, hnum, BitVec.ofNat_toNat, BitVec.setWidth_eq]
  exact ⟨⟨natToBytes_length _ _, w.isLt⟩, rfl⟩

theorem decodeBytes_encodeBytes (i : Instr) : decodeBytes (encodeBytes i) = .ok i := by
  rw [encodeBytes, decodeBytes_natToBytes_word, Inputs.ofWord_toWord, encode, decode_encodeOnto]

/-- Settles O1: the bytes read back as the word, the word as the ports, and the ports as the operation. -/
theorem instructionImageRoundTrip : Obligations.InstructionImageRoundTrip :=
  fun i x => ⟨decodeBytes_encodeBytes i, decode_encodeOnto i x, Inputs.ofWord_toWord x⟩

/-- Settles O3: an image within the bounds reads as the operation on its ports. -/
theorem imageReadExactlyWhenItFitsThePorts : Obligations.ImageReadExactlyWhenItFitsThePorts := by
  intro bs
  simp only [decodeBytes_eq_ok_iff, exists_and_left, exists_eq', and_true, imageBytes]

/-- Settles O5: each word is evaluated. -/
theorem wordsDecodeAsTheTableSays : Obligations.WordsDecodeAsTheTableSays := by
  refine ⟨?_, ?_, ?_, ?_, ?_, ?_, ?_, ?_⟩ <;> decide

/-- The one operation that leaves the ports as they are is the one they present. -/
theorem encodeOnto_eq_self_iff (i : Instr) (x : Inputs) : encodeOnto i x = x ↔ i = decode x := by
  constructor
  · intro h
    rw [← h, decode_encodeOnto]
  · rintro rfl
    exact encodeOnto_decode x

/-- Settles O2: by the value of `op`, and because presenting and reading are inverse to each other. -/
theorem inputsPresentOneOperation : Obligations.InputsPresentOneOperation :=
  fun x => ⟨decode_of_op_msb, decode_of_op_enc, decode_of_op_dec, decode_of_op_mul, fun i => encodeOnto_eq_self_iff i x⟩

end Sys2Proof
end

section
/-! SUPPORT. A step, an operation and a word from outside: each evaluates what stands on the inputs (R76, R235). -/

namespace Sys2Proof

theorem tableNumber_lt (nbits w : Nat) : tableNumber nbits w < 2 ^ nbits := Nat.mod_lt _ (Nat.two_pow_pos nbits)

/-- The bytes that the host takes for a word of `nbits` bits hold all of its bits. -/
theorem tableNumber_lt_image (nbits w : Nat) :
    tableNumber nbits w < 256 ^ max imageBytes ((nbits + 7) / 8) := by
  calc tableNumber nbits w < 2 ^ nbits := tableNumber_lt nbits w
    _ ≤ 2 ^ (8 * max imageBytes ((nbits + 7) / 8)) := Nat.pow_le_pow_right (by decide) (by omega)
    _ = 256 ^ max imageBytes ((nbits + 7) / 8) := Nat.pow_mul 2 8 _

/-- A word that is read presents the operation it is read as, once it is driven onto the inputs. -/
theorem decode_ofWord_of_decodeTableWord {nbits w : Nat} {i : Instr} (h : decodeTableWord nbits w = some i) :
    decode (Inputs.ofWord (BitVec.ofNat 65 (tableNumber nbits w))) = i := by
  rw [decodeTableWord] at h
  split at h
  case h_1 j hj =>
    obtain ⟨-, hread⟩ := (decodeBytes_eq_ok_iff _ j).1 hj
    rw [bytesToNat_natToBytes_of_lt (tableNumber_lt_image nbits w)] at hread
    exact hread.trans (Option.some.inj h)
  case h_2 => cases h

/-- Presenting an operation twice is presenting it once. -/
theorem encodeOnto_encodeOnto (i : Instr) (x : Inputs) : encodeOnto i (encodeOnto i x) = encodeOnto i x := by
  rw [encodeOnto_eq_self_iff, decode_encodeOnto]

end Sys2Proof

namespace Sys2Proof.Machine

theorem State.present_present (i : Instr) (s : State) : (s.present i).present i = s.present i := by
  simp only [State.present, encodeOnto_encodeOnto]

/-- An operation sees a state only as it stands once the operation is presented. -/
theorem exec_eq_of_present_eq {i : Instr} {s t : State} (h : s.present i = t.present i) : exec i s = exec i t := by
  cases i with
  | msb v => exact congrArg (State.deliver · driveIdx (highestSetBitIndex v)) h
  | enc v => exact congrArg (State.deliver · driveRes (encodeValue v)) h
  | dec p => exact congrArg (State.deliver · driveDec (decodePacked p)) h
  | mul a b => exact congrArg (State.deliver · driveRes (multiply a b)) h

theorem step_of_decode {i : Instr} {s : State} (h : decode s.inputs = i) : step s = exec i s := by
  rw [step, h]

/-- Running an operation is presenting it and letting the outputs settle. -/
theorem exec_eq_step_present (i : Instr) (s : State) : exec i s = step (s.present i) := by
  rw [step_of_decode (decode_encodeOnto i s.inputs)]
  exact exec_eq_of_present_eq (s.present_present i).symm

/-- Settles O4: in each clause the operation is what the inputs present. -/
theorem stepRunsPresentedOperation : Obligations.StepRunsPresentedOperation :=
  fun i s => ⟨step_of_decode, exec_eq_step_present i s,
    fun _ _ h => step_of_decode (decode_ofWord_of_decodeTableWord h)⟩

end Sys2Proof.Machine
end

section
/-! SUPPORT. The inputs and the pins after an evaluation, operation by operation (R62, R75 to R77). -/

namespace Sys2Proof.Machine

/-- Settles O14: the frame of an evaluation, with the ports each operation drives written out. -/
theorem evaluationKeepsTheInputsItDoesNotRead : Obligations.EvaluationKeepsTheInputsItDoesNotRead :=
  ⟨fun _ _ _ => exec_frame, fun _ _ _ => exec_frame, fun _ _ _ => exec_frame, fun _ _ _ _ => exec_frame⟩

/-- Settles O9: the pins show the delivered outcome, and the frame has the operation's code on `op`. -/
theorem wrapperShowsTheSelectedSubBlock : Obligations.WrapperShowsTheSelectedSubBlock := by
  intro s
  refine ⟨fun v => observedOutcome_exec_msb v s, fun v => observedOutcome_exec_enc v s,
    fun p => observedOutcome_exec_dec p s, fun a b => observedOutcome_exec_mul a b s, fun i t h => ?_⟩
  obtain ⟨hin, -⟩ := exec_frame h
  rw [hin]
  cases i <;> rfl

/-- How the outputs are driven when the sub-block of an operation has a result: on the outputs that the operation defines
(R76). -/
inductive DrivesResult : Instr → (Outputs → Outputs) → Prop where
  | msb {v : IntWord} {x : BitVec 5} (h : highestSetBitIndex v = .ok x) : DrivesResult (.msb v) (driveIdx x)
  | enc {v : IntWord} {p : Packed} (h : encodeValue v = .ok p) : DrivesResult (.enc v) (driveRes p)
  | dec {p : Packed} {d : BitVec 11 × BitVec 6} (h : decodePacked p = .ok d) : DrivesResult (.dec p) (driveDec d)
  | mul {a b p : Packed} (h : multiply a b = .ok p) : DrivesResult (.mul a b) (driveRes p)

theorem State.deliver_present_next_cases {α : Type} {i : Instr} {s t : State} {drive : α → Outputs → Outputs}
    {r : OpOutcome α} (hdrive : ∀ x, r = .ok x → DrivesResult i (drive x))
    (h : (s.present i).deliver drive r = .next t) :
    (∃ drive, DrivesResult i drive ∧ t = s.afterOk i drive) ∨ ∃ k, t = s.afterError i k := by
  obtain ⟨x, hx, ht⟩ | ⟨k, -, ht⟩ := State.deliver_next_cases h
  · exact .inl ⟨drive x, hdrive x hx, ht⟩
  · exact .inr ⟨k, ht⟩

/-- An operation answers in two ways: the result of its sub-block with OK, or an error. -/
theorem exec_next_cases {i : Instr} {s t : State} (h : exec i s = .next t) :
    (∃ drive, DrivesResult i drive ∧ t = s.afterOk i drive) ∨ ∃ k, t = s.afterError i k := by
  cases i with
  | msb v => exact State.deliver_present_next_cases (fun _ => .msb) h
  | enc v => exact State.deliver_present_next_cases (fun _ => .enc) h
  | dec p => exact State.deliver_present_next_cases (fun _ => .dec) h
  | mul a b => exact State.deliver_present_next_cases (fun _ => .mul) h

theorem ErrorKind.code_ne_errOk (k : ErrorKind) : k.code ≠ errOk := by
  cases k <;> decide

/-- OK on `err` stands for a result. -/
theorem exec_next_of_errOk {i : Instr} {s t : State} (h : exec i s = .next t) (hok : t.outputs.err = errOk) :
    ∃ drive, DrivesResult i drive ∧ t = s.afterOk i drive := by
  obtain hres | ⟨k, rfl⟩ := exec_next_cases h
  · exact hres
  · exact absurd hok k.code_ne_errOk

/-- Settles O15: on an error nothing is driven; on a result only the pins that the operation defines are. -/
theorem undefinedResultPinsCarryFreeValues : Obligations.UndefinedResultPinsCarryFreeValues := by
  intro i s t h
  obtain ⟨drive, hdrive, rfl⟩ | ⟨k, rfl⟩ := exec_next_cases h
  · cases hdrive <;> simp [encodeOnto, opMsb, opEnc, opDec, opMul, errOk, unspecifiedOutputs]
  · exact ⟨fun _ => rfl, fun _ => rfl, fun _ => ⟨rfl, rfl⟩⟩

/-- What the encoder produces has bit 15 clear. -/
theorem encodeValue_ok_lt {v : IntWord} {p : Packed} (h : encodeValue v = .ok p) : p.toNat < 32768 := by
  by_cases hv : v = 0
  · subst hv
    cases h
    decide
  have hpos : 0 < v.toNat := Nat.pos_of_ne_zero fun h0 => hv (BitVec.eq_of_toNat_eq h0)
  by_cases hlarge : 65536 ≤ v.toNat
  · rw [encodeValue_large hlarge] at h
    cases h
  · obtain ⟨q, _, hq, hbit, -⟩ := encodeValue_small hpos (not_le.1 hlarge)
    obtain rfl : q = p := OpOutcome.ok.inj (hq.symm.trans h)
    exact (bit15_eq_false_iff q).1 hbit

/-- What the multiplier produces has bit 15 clear. -/
theorem multiply_ok_lt {a b p : Packed} (h : multiply a b = .ok p) : p.toNat < 32768 := by
  by_cases hset : bit15 a = true ∨ bit15 b = true
  · rw [multiply_refused hset] at h
    cases h
  obtain ⟨ha, hb⟩ := not_or.1 hset
  rw [Bool.not_eq_true] at ha hb
  by_cases hr : productExponent a b < 0 ∨ 31 < productExponent a b
  · rw [multiply_out_of_range ha hb hr] at h
    cases h
  · obtain ⟨hlow, hhigh⟩ := not_or.1 hr
    obtain ⟨q, hq, hbit, -⟩ := multiply_in_range ha hb (not_lt.1 hlow) (not_lt.1 hhigh)
    obtain rfl : q = p := OpOutcome.ok.inj (hq.symm.trans h)
    exact (bit15_eq_false_iff q).1 hbit

theorem exec_enc_res_lt {v : IntWord} {s t : State} (h : exec (.enc v) s = .next t) (hok : t.outputs.err = errOk) :
    t.outputs.res.toNat < 32768 := by
  obtain ⟨drive, hdrive, rfl⟩ := exec_next_of_errOk h hok
  cases hdrive with
  | enc hp => exact encodeValue_ok_lt hp

theorem exec_mul_res_lt {a b : Packed} {s t : State} (h : exec (.mul a b) s = .next t)
    (hok : t.outputs.err = errOk) : t.outputs.res.toNat < 32768 := by
  obtain ⟨drive, hdrive, rfl⟩ := exec_next_of_errOk h hok
  cases hdrive with
  | mul hp => exact multiply_ok_lt hp

/-- Settles O10: a result is what the sub-block produced, and an operand with bit 15 set is refused first. -/
theorem bitFifteenClearOnResultsRefusedOnOperands : Obligations.BitFifteenClearOnResultsRefusedOnOperands :=
  ⟨fun _ _ _ => exec_enc_res_lt, fun _ _ _ _ => exec_mul_res_lt, fun _ s h => exec_dec_of_bit15 h s,
    fun _ _ s h => exec_mul_of_bit15 h s⟩

end Sys2Proof.Machine
end

section
/-! SUPPORT. The value of an admitted pattern (R63) as its significand times a power of two, which fixes both fields
(R66). -/

namespace Sys2Proof.Machine

open Sys2Proof.Safety

theorem packedValue_zero : packedValue 0x0000#16 = 0 := by
  rw [packedValue_admitted (by decide), if_pos (by decide)]

theorem packedValue_of_ne_zero {p : Packed} (hp : p.toNat < 32768) (h0 : p ≠ 0x0000#16) :
    packedValue p = ((1024 + mantOf p : Nat) : ℚ) * 2 ^ ((expOf p : ℤ) - 25) := by
  have hfields : ¬(exponentField p = 0 ∧ mantissaField p = 0) := fun h =>
    h0 (BitVec.eq_of_toNat_eq ((fields_zero_iff (bit15_of_lt hp)).1 h))
  have hpow : (2 : ℚ) ^ ((expOf p : ℤ) - 15) = 2 ^ ((expOf p : ℤ) - 25) * 1024 := by
    rw [show (expOf p : ℤ) - 15 = (expOf p : ℤ) - 25 + 10 by omega, zpow_add₀ two_ne_zero]
    norm_num
  rw [packedValue_admitted (bit15_of_lt hp), if_neg hfields, ← expOf_eq, ← mantOf_eq, hpow]
  push_cast
  ring

theorem packedValue_ne_zero {p : Packed} (hp : p.toNat < 32768) (h0 : p ≠ 0x0000#16) : packedValue p ≠ 0 := by
  rw [packedValue_of_ne_zero hp h0]
  positivity

/-- A significand with its hidden bit, scaled by a power of two, has its highest set bit ten above that power. -/
theorem scaledSignificand_bracket {m : Nat} (hm : m < 1024) (e : Nat) :
    2 ^ (10 + e) ≤ (1024 + m) * 2 ^ e ∧ (1024 + m) * 2 ^ e < 2 ^ (10 + e + 1) := by
  have hpos := Nat.two_pow_pos e
  rw [Nat.pow_succ, Nat.pow_add]
  constructor <;> nlinarith

/-- So the product fixes both the power of two and the significand. -/
theorem scaledSignificand_inj {m n e f : Nat} (hm : m < 1024) (hn : n < 1024)
    (h : (1024 + m) * 2 ^ e = (1024 + n) * 2 ^ f) : e = f ∧ m = n := by
  obtain ⟨hlow, hhigh⟩ := scaledSignificand_bracket hm e
  obtain ⟨hlow', hhigh'⟩ := scaledSignificand_bracket hn f
  rw [← h] at hlow' hhigh'
  obtain rfl : e = f := Nat.add_left_cancel (bracket_unique hlow hhigh hlow' hhigh')
  exact ⟨rfl, Nat.add_left_cancel (Nat.eq_of_mul_eq_mul_right (Nat.two_pow_pos e) h)⟩

/-- The value in units of `2^-25` is a natural number. -/
theorem packedValue_mul_two_pow {p : Packed} (hp : p.toNat < 32768) (h0 : p ≠ 0x0000#16) :
    packedValue p * 2 ^ 25 = (((1024 + mantOf p) * 2 ^ expOf p : Nat) : ℚ) := by
  rw [packedValue_of_ne_zero hp h0, zpow_sub₀ two_ne_zero, zpow_natCast, mul_assoc, show (25 : ℤ) = (25 : ℕ) from rfl,
    zpow_natCast, div_mul_cancel₀ _ (pow_ne_zero 25 two_ne_zero), Nat.cast_mul, Nat.cast_pow, Nat.cast_ofNat]

theorem eq_of_packedValue_eq {p q : Packed} (hp : p.toNat < 32768) (hq : q.toNat < 32768) (hp0 : p ≠ 0x0000#16)
    (hq0 : q ≠ 0x0000#16) (h : packedValue p = packedValue q) : p = q := by
  have hnat : (1024 + mantOf p) * 2 ^ expOf p = (1024 + mantOf q) * 2 ^ expOf q := by
    rw [← Nat.cast_inj (R := ℚ), ← packedValue_mul_two_pow hp hp0, ← packedValue_mul_two_pow hq hq0, h]
  obtain ⟨he, hm⟩ := scaledSignificand_inj (mantOf_lt p) (mantOf_lt q) hnat
  apply BitVec.eq_of_toNat_eq
  rw [admitted_toNat hp, admitted_toNat hq, he, hm]

/-- Settles O29: the zero pattern alone has the value 0, and any other value fixes the fields of its pattern. -/
theorem admittedPatternsHaveDistinctValues : Obligations.AdmittedPatternsHaveDistinctValues := by
  refine ⟨fun p q hp hq h => ?_, fun p hp h0 => ⟨packedValue_of_ne_zero hp h0, packedValue_ne_zero hp h0⟩⟩
  by_cases hp0 : p = 0x0000#16
  · subst hp0
    by_contra hne
    exact packedValue_ne_zero hq (Ne.symm hne) (h.symm.trans packedValue_zero)
  by_cases hq0 : q = 0x0000#16
  · subst hq0
    exact absurd (h.trans packedValue_zero) (packedValue_ne_zero hp hp0)
  exact eq_of_packedValue_eq hp hq hp0 hq0 h

end Sys2Proof.Machine
end

section
/-! SUPPORT. The rules of Safety.lean, operation by operation: what an evaluation leaves on the pins meets the rule of its
operation. -/

namespace Sys2Proof.Machine

open Sys2Proof.Safety

/-- The rule of Safety.lean for an operation. -/
def MeetsRule : Instr → Outputs → Prop
  | .msb v, o => MsbRule v o
  | .enc v, o => EncRule v o
  | .dec p, o => DecRule p o
  | .mul a b, o => MulRule a b o

/-- The pins meet the rules exactly when they meet that of the operation on the inputs (R76). -/
theorem pinsMeetRules_iff (s : State) : PinsMeetRules s ↔ MeetsRule (decode s.inputs) s.outputs := by
  obtain h | h | h | h := OpSelect.cases s.inputs.op
  · rw [decode_of_op_msb h, PinsMeetRules, if_pos h, MeetsRule]
  · rw [decode_of_op_enc h]
    simp [PinsMeetRules, h, MeetsRule]
  · rw [decode_of_op_dec h]
    simp [PinsMeetRules, h, MeetsRule]
  · rw [decode_of_op_mul h]
    simp [PinsMeetRules, h, MeetsRule]

theorem eq_of_exec_eq_next {i : Instr} {s t u : State} (h : exec i s = .next t) (hu : exec i s = .next u) : t = u :=
  Host.Outcome.next.inj (h.symm.trans hu)

theorem exec_msb_meetsRule {v : IntWord} {s t : State} (h : exec (.msb v) s = .next t) : MsbRule v t.outputs := by
  by_cases hv : v = 0
  · subst hv
    obtain rfl := eq_of_exec_eq_next h (exec_msb_of_zero s)
    rfl
  · have hne : v.toNat ≠ 0 := fun h0 => hv (BitVec.eq_of_toNat_eq h0)
    obtain ⟨i, hi, -, -, hlow, hhigh⟩ := exec_msb_of_ne_zero hv s
    obtain rfl := eq_of_exec_eq_next h hi
    rw [MsbRule, if_neg hne]
    exact ⟨rfl, hlow, hhigh⟩

theorem exec_enc_meetsRule {v : IntWord} {s t : State} (h : exec (.enc v) s = .next t) : EncRule v t.outputs := by
  by_cases hv : v = 0
  · subst hv
    obtain rfl := eq_of_exec_eq_next h (exec_enc_of_zero s)
    exact ⟨rfl, rfl⟩
  have hne : v.toNat ≠ 0 := fun h0 => hv (BitVec.eq_of_toNat_eq h0)
  rw [EncRule, if_neg hne]
  by_cases hlarge : 65536 ≤ v.toNat
  · obtain rfl := eq_of_exec_eq_next h (exec_enc_of_large hlarge s)
    rw [if_pos hlarge]
    rfl
  · obtain ⟨p, msb, hp, hlt, -, hlow, hhigh, hexp, hmant⟩ :=
      exec_enc_of_small (Nat.pos_of_ne_zero hne) (not_le.1 hlarge) s
    obtain rfl := eq_of_exec_eq_next h hp
    have hres : p.toNat = (15 + msb) * 1024 + (v.toNat - 2 ^ msb) * 1024 / 2 ^ msb := by
      rw [admitted_toNat hlt, hexp, hmant]
    rw [if_neg hlarge]
    exact ⟨rfl, msb, hlow, hhigh, hres⟩

theorem exec_dec_meetsRule {p : Packed} {s t : State} (h : exec (.dec p) s = .next t) : DecRule p t.outputs := by
  have hp : p.toNat < 32768 := (Packed.admitted_iff p).1 (wf_of_exec_answers h)
  have hsig : (decodedSig p).toNat = if p.toNat = 0 then 0 else 1024 + mantOf p := by
    simp only [decodedSig_toNat, fields_zero_iff (bit15_of_lt hp), mantOf_eq]
  have hexp : (decodedExp p).toInt = (expOf p : Int) - 25 := by rw [decodedExp_toInt, expOf_eq]
  obtain rfl := eq_of_exec_eq_next h (exec_dec_of_admitted hp s)
  exact ⟨hp, rfl, hsig, hexp⟩

theorem exec_mul_meetsRule {a b : Packed} {s t : State} (h : exec (.mul a b) s = .next t) :
    MulRule a b t.outputs := by
  obtain ⟨ha, hb⟩ := (Instr.wf_mul_iff a b).1 (wf_of_exec_answers h)
  refine ⟨ha, hb, ?_⟩
  split
  case isTrue hr =>
    obtain rfl := eq_of_exec_eq_next h (exec_mul_out_of_range ha hb hr s)
    rfl
  case isFalse hr =>
    obtain ⟨hlow, hhigh⟩ := not_or.1 hr
    obtain ⟨p, hp, -, hlt, hexp, hmant⟩ := exec_mul_in_range ha hb (not_lt.1 hlow) (not_lt.1 hhigh) s
    obtain rfl := eq_of_exec_eq_next h hp
    have hres : (p.toNat : Int) = exponentOf a b * 1024 + mantissaOf a b := by
      rw [admitted_toNat hlt, ← hexp, ← hmant]
      push_cast
      rfl
    exact ⟨rfl, hres⟩

theorem exec_meetsRule {i : Instr} {s t : State} (h : exec i s = .next t) : MeetsRule i t.outputs := by
  cases i with
  | msb v => exact exec_msb_meetsRule h
  | enc v => exact exec_enc_meetsRule h
  | dec p => exact exec_dec_meetsRule h
  | mul a b => exact exec_mul_meetsRule h

/-- An evaluation leaves its own operation on the inputs, so the rule it meets is the one the pins are held to. -/
theorem pinsMeetRules_of_exec {i : Instr} {s t : State} (h : exec i s = .next t) : PinsMeetRules t := by
  rw [pinsMeetRules_iff, (exec_frame h).1, decode_encodeOnto]
  exact exec_meetsRule h

/-- Settles O6: by the rule of each operation, and the frame of an evaluation. -/
theorem everyStepLeavesPinsThatMeetTheRules : Obligations.EveryStepLeavesPinsThatMeetTheRules :=
  ⟨fun _ _ _ => pinsMeetRules_of_exec, fun _ _ h => ⟨pinsMeetRules_of_exec h, step_keeps_inputs h⟩⟩

end Sys2Proof.Machine
end

section
/-! SUPPORT. The detector: the index whose powers of two bracket the number is that of its highest set bit (R101, R102,
R105). -/

namespace Sys2Proof.Machine

/-- The highest set bit of a number, from the powers of two that bracket it. -/
theorem highest_bit_of_bracket {w : Nat} {v : BitVec w} {i : Nat} (hlow : 2 ^ i ≤ v.toNat)
    (hhigh : v.toNat < 2 ^ (i + 1)) : v.getLsbD i = true ∧ ∀ j, v.getLsbD j = true → j ≤ i := by
  refine ⟨Nat.testBit_of_two_pow_le_and_two_pow_add_one_gt hlow hhigh, fun j hj => ?_⟩
  have hpow : 2 ^ j < 2 ^ (i + 1) := lt_of_le_of_lt (Nat.ge_two_pow_of_testBit hj) hhigh
  exact Nat.lt_succ_iff.1 ((Nat.pow_lt_pow_iff_right (by decide)).1 hpow)

theorem highestSetBitIndex_is_highest {w : Nat} (hw : w ≤ 32) {v : BitVec w} (hv : v ≠ 0) :
    ∃ i : BitVec 5, highestSetBitIndex v = .ok i ∧ i.toNat < w ∧ v.getLsbD i.toNat = true ∧
      (∀ j, v.getLsbD j = true → j ≤ i.toNat) ∧ 2 ^ i.toNat ≤ v.toNat ∧ v.toNat < 2 ^ (i.toNat + 1) := by
  obtain ⟨i, hi, hlt, hlow, hhigh⟩ := highestSetBitIndex_ok hw hv
  obtain ⟨hbit, hmax⟩ := highest_bit_of_bracket hlow hhigh
  exact ⟨i, hi, hlt, hbit, hmax, hlow, hhigh⟩

/-- Settles O16: the scan's answer brackets the number, and MSB drives that answer on `idx`. -/
theorem msbGivesTheHighestSetBit : Obligations.MsbGivesTheHighestSetBit := by
  refine ⟨fun w v _ hw => ⟨?_, highestSetBitIndex_is_highest hw⟩, fun v s hv => ?_,
    fun s => ⟨_, exec_msb_of_zero s, rfl⟩⟩
  · rintro rfl
    exact highestSetBitIndex_zero
  · obtain ⟨i, hi, -, hlt, hlow, hhigh⟩ := exec_msb_of_ne_zero hv s
    obtain ⟨hbit, hmax⟩ := highest_bit_of_bracket hlow hhigh
    exact ⟨_, hi, rfl, rfl, rfl, hlt, hbit, hmax⟩

/-- Settles O18: the wider instance sees the same number, so the same index brackets it. -/
theorem detectorIndexDoesNotDependOnWidth : Obligations.DetectorIndexDoesNotDependOnWidth := by
  intro w1 w2 v hw hw2 hv
  obtain ⟨i, hi, -, hlow, hhigh⟩ := highestSetBitIndex_ok (hw.trans hw2) hv
  have hnum : (v.setWidth w2).toNat = v.toNat := BitVec.toNat_setWidth_of_le hw
  rw [← hnum] at hlow hhigh
  rw [hi, highestSetBitIndex_eq hw2 hlow hhigh]

/-- Settles O17: the error is reported, and what is read off the pins is that error. -/
theorem msbOfZeroIsPreconditionError : Obligations.MsbOfZeroIsPreconditionError := by
  refine ⟨fun w _ _ => highestSetBitIndex_zero, fun s => ⟨_, exec_msb_of_zero s, rfl, ?_⟩⟩
  have hread : (s.afterError (.msb 0) .preconditionError).readOutcome = .ok (.err .preconditionError) :=
    State.readOutcome_reportError _ _
  refine ⟨hread, fun r hr => ?_⟩
  rw [hread] at hr
  cases hr

end Sys2Proof.Machine
end

section
/-! SUPPORT. What the encoder answers, by the size of the value (R121 to R126): 0, below 65536 with a given highest set bit,
and from 65536 up. -/

namespace Sys2Proof.Machine

open Sys2Proof.Safety

/-- The scaled mantissa keeps every bit below the hidden one while there are at most ten of them (R125). -/
theorem scaledMantissa_of_le {msb : Nat} (h : msb ≤ 10) (r : Nat) : r * 1024 / 2 ^ msb = r * 2 ^ (10 - msb) := by
  rw [show (1024 : Nat) = 2 ^ (10 - msb) * 2 ^ msb by rw [Nat.pow_sub_mul_pow 2 h], ← Nat.mul_assoc,
    Nat.mul_div_cancel _ (Nat.two_pow_pos msb)]

/-- With ten bits or more below the hidden one it keeps the upper ten. -/
theorem scaledMantissa_of_ge {msb : Nat} (h : 10 ≤ msb) (r : Nat) : r * 1024 / 2 ^ msb = r / 2 ^ (msb - 10) := by
  rw [← Nat.pow_sub_mul_pow 2 h, show (2 : Nat) ^ 10 = 1024 from rfl, Nat.mul_div_mul_right _ _ (by decide)]

/-- The encoding of a value below 65536 whose highest set bit is given (R121). -/
theorem exec_enc_of_bracket {v : IntWord} {msb : Nat} (hlow : 2 ^ msb ≤ v.toNat) (hhigh : v.toNat < 2 ^ (msb + 1))
    (h : v.toNat < 65536) (s : State) :
    ∃ p, exec (.enc v) s = .next (s.afterOk (.enc v) (driveRes p)) ∧ p.toNat < 32768 ∧ expOf p = 15 + msb ∧
      mantOf p = (v.toNat - 2 ^ msb) * 1024 / 2 ^ msb := by
  obtain ⟨p, i, hp, hlt, -, hlow', hhigh', hexp, hmant⟩ :=
    exec_enc_of_small ((Nat.two_pow_pos msb).trans_le hlow) h s
  obtain rfl := bracket_unique hlow' hhigh' hlow hhigh
  exact ⟨p, hp, hlt, hexp, hmant⟩

/-- Settles O20: the three sizes of a value, each with the one state it leaves. -/
theorem encPacksByTruncation : Obligations.EncPacksByTruncation := by
  intro v s
  obtain ⟨t, ht⟩ := exec_enc_answers v s
  obtain ⟨hin, -⟩ := exec_frame ht
  refine ⟨t, ht, by rw [hin]; rfl, by rw [hin]; rfl, fun h0 => ?_, fun msb hlow hhigh h => ?_, fun hlarge => ?_⟩
  · obtain rfl : v = 0 := BitVec.eq_of_toNat_eq h0
    obtain rfl := eq_of_exec_eq_next ht (exec_enc_of_zero s)
    exact ⟨rfl, rfl⟩
  · obtain ⟨p, hp, hlt, hexp, hmant⟩ := exec_enc_of_bracket hlow hhigh h s
    obtain rfl := eq_of_exec_eq_next ht hp
    exact ⟨rfl, hlt, hexp, fun hm => hmant.trans (scaledMantissa_of_le hm _),
      fun hm => hmant.trans (scaledMantissa_of_ge (by omega) _)⟩
  · obtain rfl := eq_of_exec_eq_next ht (exec_enc_of_large hlarge s)
    rfl

theorem exec_enc_err_of_lt {v : IntWord} {s t : State} (ht : exec (.enc v) s = .next t) (h : v.toNat < 65536) :
    t.outputs.err = 0b00#2 := by
  by_cases h0 : v.toNat = 0
  · obtain rfl : v = 0 := BitVec.eq_of_toNat_eq h0
    obtain rfl := eq_of_exec_eq_next ht (exec_enc_of_zero s)
    rfl
  · obtain ⟨p, _, hp, -⟩ := exec_enc_of_small (Nat.pos_of_ne_zero h0) h s
    obtain rfl := eq_of_exec_eq_next ht hp
    rfl

theorem exec_enc_err_of_ge {v : IntWord} {s t : State} (ht : exec (.enc v) s = .next t) (h : 65536 ≤ v.toNat) :
    t.outputs.err = 0b10#2 := by
  obtain rfl := eq_of_exec_eq_next ht (exec_enc_of_large h s)
  rfl

theorem exec_enc_errOk_iff {v : IntWord} {s t : State} (ht : exec (.enc v) s = .next t) :
    t.outputs.err = 0b00#2 ↔ v.toNat < 65536 := by
  refine ⟨fun hok => ?_, exec_enc_err_of_lt ht⟩
  by_contra hlarge
  rw [exec_enc_err_of_ge ht (not_lt.1 hlarge)] at hok
  cases hok

theorem exec_enc_rangeError_iff {v : IntWord} {s t : State} (ht : exec (.enc v) s = .next t) :
    t.outputs.err = 0b10#2 ↔ 65536 ≤ v.toNat := by
  refine ⟨fun herr => ?_, exec_enc_err_of_ge ht⟩
  by_contra hsmall
  rw [exec_enc_err_of_lt ht (not_le.1 hsmall)] at herr
  cases herr

theorem exec_enc_zero_exponent {s t : State} (ht : exec (.enc 0) s = .next t) : expOf t.outputs.res = 0 := by
  obtain rfl := eq_of_exec_eq_next ht (exec_enc_of_zero s)
  rw [State.afterOk_outputs, driveRes_res]
  decide

theorem exec_enc_exponent_bounds {v : IntWord} {s t : State} (ht : exec (.enc v) s = .next t) (h0 : 0 < v.toNat)
    (h : v.toNat < 65536) : 15 ≤ expOf t.outputs.res ∧ expOf t.outputs.res ≤ 30 := by
  obtain ⟨p, msb, hp, -, hmsb, -, -, hexp, -⟩ := exec_enc_of_small h0 h s
  obtain rfl := eq_of_exec_eq_next ht hp
  rw [State.afterOk_outputs, driveRes_res, hexp]
  omega

/-- The check of R122: a highest set bit of 16 or more is a value of 65536 or more. -/
theorem sixteen_le_index_iff {v : IntWord} {i : BitVec 5} (hi : highestSetBitIndex v = .ok i) :
    16 ≤ i.toNat ↔ 65536 ≤ v.toNat := by
  have hv : v ≠ 0 := by
    rintro rfl
    cases hi.symm.trans highestSetBitIndex_zero
  obtain ⟨j, hj, -, hlow, hhigh⟩ := highestSetBitIndex_ok (by decide) hv
  obtain rfl : j = i := OpOutcome.ok.inj (hj.symm.trans hi)
  constructor
  · intro h
    exact (Nat.pow_le_pow_right (by decide) h : 2 ^ 16 ≤ 2 ^ j.toNat).trans hlow
  · intro h
    have hpow : 2 ^ 16 < 2 ^ (j.toNat + 1) := h.trans_lt hhigh
    exact Nat.lt_succ_iff.1 ((Nat.pow_lt_pow_iff_right (by decide)).1 hpow)

/-- Settles O21: the code on `err` tells the two ranges apart, and the exponent fields of results end at 30. -/
theorem encRangeErrorExactlyFrom65536 : Obligations.EncRangeErrorExactlyFrom65536 := by
  intro v s
  obtain ⟨t, ht⟩ := exec_enc_answers v s
  refine ⟨t, ht, exec_enc_rangeError_iff ht, exec_enc_errOk_iff ht, fun i hi => ?_, fun hlarge => ?_, fun hok => ?_⟩
  · rw [exec_enc_rangeError_iff ht, sixteen_le_index_iff hi]
  · obtain rfl := eq_of_exec_eq_next ht (exec_enc_of_large hlarge s)
    exact State.readOutcome_reportError _ _
  · by_cases h0 : v.toNat = 0
    · obtain rfl : v = 0 := BitVec.eq_of_toNat_eq h0
      rw [exec_enc_zero_exponent ht]
      decide
    · obtain ⟨-, h30⟩ := exec_enc_exponent_bounds ht (Nat.pos_of_ne_zero h0) ((exec_enc_errOk_iff ht).1 hok)
      omega

/-- Settles O25: the exponent field by the size of the value; the other bounds are those of a pattern with bit 15 clear. -/
theorem encResultFieldBounds : Obligations.EncResultFieldBounds := by
  intro v s t ht hok
  have h := (exec_enc_errOk_iff ht).1 hok
  refine ⟨exec_enc_res_lt ht hok, Nat.le_of_lt_succ (mantissaField t.outputs.res).isLt, fun h0 => ?_, fun h1 => ?_⟩
  · obtain rfl : v = 0 := BitVec.eq_of_toNat_eq h0
    rw [← expOf_eq, exec_enc_zero_exponent ht]
  · rw [← expOf_eq]
    exact ⟨Nat.le_of_lt_succ h, exec_enc_exponent_bounds ht h1 h⟩

end Sys2Proof.Machine
end

section
/-! SUPPORT. What DEC shows is the value of the pattern (R63, R141). -/

namespace Sys2Proof.Machine

open Sys2Proof.Safety

theorem pinsValue_decoded {p : Packed} (hp : p.toNat < 32768) :
    pinsValue (decodedSig p) (decodedExp p) = packedValue p := by
  by_cases h0 : p = 0x0000#16
  · subst h0
    rw [packedValue_zero, pinsValue, show (decodedSig 0x0000#16).toNat = 0 by decide, Nat.cast_zero, zero_mul]
  · have hfields : ¬(exponentField p = 0 ∧ mantissaField p = 0) := fun h =>
      h0 (BitVec.eq_of_toNat_eq ((fields_zero_iff (bit15_of_lt hp)).1 h))
    rw [packedValue_of_ne_zero hp h0, pinsValue, decodedSig_toNat, if_neg hfields, decodedExp_toInt, expOf_eq, mantOf_eq]

theorem exec_dec_shows_packedValue {p : Packed} (hp : p.toNat < 32768) (s : State) :
    ∃ u, exec (.dec p) s = .next u ∧ u.outputs.err = 0b00#2 ∧
      pinsValue u.outputs.decSig u.outputs.decExp = packedValue p :=
  ⟨_, exec_dec_of_admitted hp s, rfl, pinsValue_decoded hp⟩

end Sys2Proof.Machine
end

section
/-! SUPPORT. Encoding and decoding drops the bits below the eleventh significant one and nothing else (R128 to R131). -/

namespace Sys2Proof.Machine

open Sys2Proof.Safety

/-- A number with its bits below the eleventh significant one dropped: those at the places below `msb - 10` (R129). There are
none up to 2047. -/
def dropBelowEleven (n : Nat) : Nat := n / 2 ^ (Nat.log 2 n - 10) * 2 ^ (Nat.log 2 n - 10)

theorem dropBelowEleven_eq {n msb : Nat} (hlow : 2 ^ msb ≤ n) (hhigh : n < 2 ^ (msb + 1)) :
    dropBelowEleven n = n / 2 ^ (msb - 10) * 2 ^ (msb - 10) := by
  rw [dropBelowEleven, Nat.log_eq_of_pow_le_of_lt_pow hlow hhigh]

theorem dropBelowEleven_of_le {n : Nat} (h : n ≤ 2047) : dropBelowEleven n = n := by
  have hlog : Nat.log 2 n < 11 := Nat.log_lt_of_lt_pow' (by decide) (Nat.lt_succ_of_le h)
  rw [dropBelowEleven, Nat.sub_eq_zero_of_le (Nat.le_of_lt_succ hlog), pow_zero, Nat.div_one, Nat.mul_one]

theorem dropBelowEleven_le (n : Nat) : dropBelowEleven n ≤ n := Nat.div_mul_le_self _ _

/-- The highest set bit is kept: it is a multiple of the power of two that the rest is cut to. -/
theorem two_pow_log_le_dropBelowEleven {n : Nat} (h0 : n ≠ 0) : 2 ^ Nat.log 2 n ≤ dropBelowEleven n := by
  have hdvd : 2 ^ (Nat.log 2 n - 10) ∣ 2 ^ Nat.log 2 n := Nat.pow_dvd_pow 2 (Nat.sub_le _ _)
  calc 2 ^ Nat.log 2 n = 2 ^ Nat.log 2 n / 2 ^ (Nat.log 2 n - 10) * 2 ^ (Nat.log 2 n - 10) :=
        (Nat.div_mul_cancel hdvd).symm
    _ ≤ dropBelowEleven n := Nat.mul_le_mul_right _ (Nat.div_le_div_right (Nat.pow_log_le_self 2 h0))

/-- Dropping keeps the order: numbers of one length lose bits at the same places, and a longer one keeps its highest bit. -/
theorem dropBelowEleven_mono {m n : Nat} (h : m ≤ n) : dropBelowEleven m ≤ dropBelowEleven n := by
  obtain hlog | hlog := (Nat.log_mono_right h : Nat.log 2 m ≤ Nat.log 2 n).eq_or_lt
  · rw [dropBelowEleven, dropBelowEleven, hlog]
    exact Nat.mul_le_mul_right _ (Nat.div_le_div_right h)
  · have hn : n ≠ 0 := by
      rintro rfl
      simp at hlog
    calc dropBelowEleven m ≤ m := dropBelowEleven_le m
      _ ≤ 2 ^ Nat.log 2 n := (Nat.lt_pow_of_log_lt (by decide) hlog).le
      _ ≤ dropBelowEleven n := two_pow_log_le_dropBelowEleven hn

/-- The significand that the encoder packs, at the place of the highest set bit, is what is kept of the number. -/
theorem scaledSignificand_eq_dropBelowEleven {n msb : Nat} (hlow : 2 ^ msb ≤ n) (hhigh : n < 2 ^ (msb + 1)) :
    (1024 + (n - 2 ^ msb) * 1024 / 2 ^ msb) * 2 ^ msb = dropBelowEleven n * 1024 := by
  rw [dropBelowEleven_eq hlow hhigh]
  obtain ⟨r, rfl⟩ := Nat.exists_eq_add_of_le hlow
  rw [Nat.add_sub_cancel_left]
  obtain hm | hm := Nat.le_total msb 10
  · have hpow : 2 ^ (10 - msb) * 2 ^ msb = 1024 := Nat.pow_sub_mul_pow 2 hm
    rw [scaledMantissa_of_le hm, Nat.sub_eq_zero_of_le hm, pow_zero, Nat.div_one, Nat.mul_one, Nat.add_mul, Nat.add_mul,
      Nat.mul_assoc, hpow, Nat.mul_comm]
  · obtain ⟨k, rfl⟩ := Nat.exists_eq_add_of_le hm
    rw [scaledMantissa_of_ge hm, Nat.add_sub_cancel_left, Nat.pow_add, Nat.mul_comm (2 ^ 10),
      Nat.mul_add_div (Nat.two_pow_pos k)]
    ring

theorem packedValue_encoded {p : Packed} {n msb : Nat} (hp : p.toNat < 32768) (hlow : 2 ^ msb ≤ n)
    (hhigh : n < 2 ^ (msb + 1)) (hexp : expOf p = 15 + msb) (hmant : mantOf p = (n - 2 ^ msb) * 1024 / 2 ^ msb) :
    packedValue p = (dropBelowEleven n : ℚ) := by
  have h0 : p ≠ 0x0000#16 := by
    rintro rfl
    rw [show expOf 0x0000#16 = 0 from rfl] at hexp
    omega
  have hpow : (2 : ℚ) ^ ((expOf p : ℤ) - 25) = 2 ^ msb / 1024 := by
    rw [hexp, show ((15 + msb : ℕ) : ℤ) - 25 = (msb : ℤ) - 10 by omega, zpow_sub₀ two_ne_zero, zpow_natCast]
    norm_num
  have hsig : ((1024 + mantOf p : ℕ) : ℚ) * 2 ^ msb = dropBelowEleven n * 1024 := by
    rw [hmant]
    exact_mod_cast scaledSignificand_eq_dropBelowEleven hlow hhigh
  rw [packedValue_of_ne_zero hp h0, hpow, ← mul_div_assoc, hsig, mul_div_cancel_right₀ _ (by norm_num)]

/-- The pattern that the encoder delivers for a value below 65536 has what is kept of it as its value. -/
theorem exec_enc_packedValue {v : IntWord} (h : v.toNat < 65536) (s : State) :
    ∃ t, exec (.enc v) s = .next t ∧ t.outputs.err = 0b00#2 ∧ t.outputs.res.toNat < 32768 ∧
      packedValue t.outputs.res = (dropBelowEleven v.toNat : ℚ) := by
  by_cases h0 : v.toNat = 0
  · obtain rfl : v = 0 := BitVec.eq_of_toNat_eq h0
    refine ⟨_, exec_enc_of_zero s, rfl, (show (0x0000#16).toNat < 32768 by decide), ?_⟩
    rw [h0, dropBelowEleven_of_le (Nat.zero_le _), Nat.cast_zero]
    exact packedValue_zero
  · obtain ⟨p, _, hp, hlt, -, hlow, hhigh, hexp, hmant⟩ := exec_enc_of_small (Nat.pos_of_ne_zero h0) h s
    exact ⟨_, hp, rfl, hlt, packedValue_encoded hlt hlow hhigh hexp hmant⟩

theorem exec_enc_then_dec {v : IntWord} (h : v.toNat < 65536) (s : State) :
    ∃ t u, exec (.enc v) s = .next t ∧ t.outputs.err = 0b00#2 ∧ exec (.dec t.outputs.res) t = .next u ∧
      u.outputs.err = 0b00#2 ∧ pinsValue u.outputs.decSig u.outputs.decExp = (dropBelowEleven v.toNat : ℚ) := by
  obtain ⟨t, ht, hok, hlt, hvalue⟩ := exec_enc_packedValue h s
  obtain ⟨u, hu, hok', hpins⟩ := exec_dec_shows_packedValue hlt t
  exact ⟨t, u, ht, hok, hu, hok', hpins.trans hvalue⟩

/-- Settles O22: 0 is a value below 2048, of which everything is kept. -/
theorem encOfZeroDecodesToZero : Obligations.EncOfZeroDecodesToZero := by
  intro s
  obtain ⟨t, u, ht, hok, hu, hok', hpins⟩ := exec_enc_then_dec (v := 0) (by decide) s
  have hres : t.outputs.res = 0x0000#16 := by
    rw [eq_of_exec_eq_next ht (exec_enc_of_zero s)]
    rfl
  refine ⟨t, u, ht, hok, hres, hu, hok', ?_⟩
  rw [hpins, dropBelowEleven_of_le (by decide)]
  rfl

/-- Settles O23: up to 2047 there is no bit below the eleventh. -/
theorem encThenDecIsExactUpTo2047 : Obligations.EncThenDecIsExactUpTo2047 := by
  intro v s h
  obtain ⟨t, u, ht, hok, hu, hok', hpins⟩ := exec_enc_then_dec (v := v) (by omega) s
  rw [dropBelowEleven_of_le h] at hpins
  exact ⟨t, u, ht, hok, hu, hok', hpins⟩

/-- The loss is the value of the dropped bits: the remainder by the power of two the number is cut to. -/
theorem sub_cut_eq_mod (n d : Nat) : (n : ℚ) - ((n / d * d : Nat) : ℚ) = ((n % d : Nat) : ℚ) := by
  rw [sub_eq_iff_eq_add, ← Nat.cast_add, Nat.mod_add_div']

/-- 2049 has twelve significant bits; its encoding drops the last. -/
theorem exec_enc_2049 (s : State) : exec (.enc 2049) s = .next (s.afterOk (.enc 2049) (driveRes 0x6800#16)) :=
  congrArg ((s.present (.enc 2049)).deliver driveRes) (show encodeValue 2049 = .ok 0x6800#16 by decide)

/-- Settles O24: the decoded value is what is kept, and the loss is the remainder, below the power of two of the cut. -/
theorem encThenDecDropsTheLowBits : Obligations.EncThenDecDropsTheLowBits := by
  refine ⟨fun v s msb _ h hlow hhigh => ?_, fun s => ?_⟩
  · obtain ⟨t, u, ht, hok, hu, hok', hpins⟩ := exec_enc_then_dec (v := v) (Nat.lt_succ_of_le h) s
    rw [dropBelowEleven_eq hlow hhigh] at hpins
    have hloss := sub_cut_eq_mod v.toNat (2 ^ (msb - 10))
    rw [← hpins] at hloss
    have hmod : ((v.toNat % 2 ^ (msb - 10) : Nat) : ℚ) < 2 ^ (msb - 10) := by
      exact_mod_cast Nat.mod_lt _ (Nat.two_pow_pos (msb - 10))
    have hnonneg : (0 : ℚ) ≤ ((v.toNat % 2 ^ (msb - 10) : Nat) : ℚ) := Nat.cast_nonneg _
    exact ⟨t, u, ht, hok, hu, hok', hpins, by linarith, by linarith, hloss⟩
  · obtain ⟨t, u, ht, -, hu, -, hpins⟩ := exec_enc_then_dec (v := 2049) (by decide) s
    have hres : t.outputs.res = 0x6800#16 := by
      rw [eq_of_exec_eq_next ht (exec_enc_2049 s)]
      rfl
    refine ⟨t, u, ht, hres, hu, ?_⟩
    rw [hpins, dropBelowEleven_eq (msb := 11) (by decide) (by decide)]
    rfl

/-- Settles O26: what is kept of a smaller number is no larger. -/
theorem encIsMonotonic : Obligations.EncIsMonotonic := by
  intro v1 v2 s1 s2 hle h2
  obtain ⟨t1, u1, ht1, hok1, hu1, -, hpins1⟩ := exec_enc_then_dec (v := v1) (by omega) s1
  obtain ⟨t2, u2, ht2, hok2, hu2, -, hpins2⟩ := exec_enc_then_dec (v := v2) (by omega) s2
  refine ⟨t1, t2, u1, u2, ht1, ht2, hok1, hok2, hu1, hu2, ?_⟩
  rw [hpins1, hpins2]
  exact Nat.cast_le.2 (dropBelowEleven_mono hle)

end Sys2Proof.Machine
end

section
/-! SUPPORT. DEC in plain arithmetic (R141), and at the two ends of the exponent range (R143 to R145). -/

namespace Sys2Proof.Machine

open Sys2Proof.Safety

theorem plain_fields_zero_iff (p : Packed) :
    (expOf p = 0 ∧ mantOf p = 0) ↔ (exponentField p = 0 ∧ mantissaField p = 0) := by
  rw [expOf_eq, mantOf_eq, ← BitVec.toNat_inj, ← BitVec.toNat_inj]
  rfl

theorem decodedSig_toNat_plain (p : Packed) :
    (decodedSig p).toNat = if expOf p = 0 ∧ mantOf p = 0 then 0 else 1024 + mantOf p := by
  simp only [decodedSig_toNat, ← plain_fields_zero_iff, ← mantOf_eq]

/-- R63, in the fields as plain numbers. -/
theorem packedValue_plain {p : Packed} (hp : p.toNat < 32768) :
    packedValue p =
      if expOf p = 0 ∧ mantOf p = 0 then 0 else (1 + (mantOf p : ℚ) / 1024) * 2 ^ ((expOf p : ℤ) - 15) := by
  simp only [packedValue_admitted (bit15_of_lt hp), ← plain_fields_zero_iff, ← expOf_eq, ← mantOf_eq]

/-- Settles O27: the significand and the power of two are the decoder's, and the value on the pins is the pattern's, by the
formula of R63. -/
theorem decGivesTheExactValue : Obligations.DecGivesTheExactValue := by
  refine ⟨fun p s hp => ?_, fun _ s h => exec_dec_of_bit15 h s⟩
  have hvalue := pinsValue_decoded hp
  have hexp : (decodedExp p).toInt = (expOf p : Int) - 25 := by rw [decodedExp_toInt, expOf_eq]
  exact ⟨_, exec_dec_of_admitted hp s, rfl, rfl, rfl, decodedSig_toNat_plain p, hexp,
    hvalue.trans (packedValue_plain hp), hvalue⟩

/-- Any admitted pattern but the zero pattern decodes by the formula with the hidden bit, whatever its exponent field. -/
theorem exec_dec_shows_formula {p : Packed} (hp : p.toNat < 32768) (h0 : p.toNat ≠ 0) {k : ℤ}
    (hk : (expOf p : ℤ) - 15 = k) (s : State) :
    ∃ t, exec (.dec p) s = .next t ∧ t.outputs.err = 0b00#2 ∧
      pinsValue t.outputs.decSig t.outputs.decExp = (1 + (mantOf p : ℚ) / 1024) * 2 ^ k := by
  obtain ⟨t, ht, hok, hpins⟩ := exec_dec_shows_packedValue hp s
  have hfields : ¬(expOf p = 0 ∧ mantOf p = 0) := by
    rw [plain_fields_zero_iff, fields_zero_iff (bit15_of_lt hp)]
    exact h0
  rw [packedValue_plain hp, if_neg hfields, hk] at hpins
  exact ⟨t, ht, hok, hpins⟩

/-- The range of the values with exponent field 31 (R145). -/
theorem largest_exponent_value_bounds {m : Nat} (hm : m < 1024) :
    65536 ≤ (1 + (m : ℚ) / 1024) * 2 ^ 16 ∧ (1 + (m : ℚ) / 1024) * 2 ^ 16 ≤ 131008 := by
  have h0 : (0 : ℚ) ≤ m := Nat.cast_nonneg m
  have h1 : (m : ℚ) ≤ 1023 := by exact_mod_cast Nat.le_of_lt_succ hm
  constructor <;> linarith

/-- The encoder never produces exponent field 31 (R122, R145). -/
theorem exec_enc_res_lt_largest_exponent {v : IntWord} {s t : State} (ht : exec (.enc v) s = .next t)
    (hok : t.outputs.err = 0b00#2) : t.outputs.res.toNat < 0x7C00 := by
  obtain ⟨u, hu, -, -, -, -, hexp⟩ := encRangeErrorExactlyFrom65536 v s
  obtain rfl := eq_of_exec_eq_next ht hu
  have hne := hexp hok
  have hlt := expOf_lt t.outputs.res
  have hmant := mantOf_lt t.outputs.res
  rw [admitted_toNat (exec_enc_res_lt ht hok)]
  omega

/-- Settles O28: the zero pattern is evaluated, the other two ranges fix the exponent field in the formula, and no result of
the encoder has the largest one. -/
theorem decOfTheEndsOfTheExponentRange : Obligations.DecOfTheEndsOfTheExponentRange := by
  refine ⟨fun s => ?_, fun p s hlow hhigh => ?_, fun p s hlow hhigh => ?_, fun _ _ _ => exec_enc_res_lt_largest_exponent⟩
  · have hp : (0x0000#16).toNat < 32768 := by decide
    exact ⟨_, exec_dec_of_admitted hp s, rfl, (by decide : decodedSig 0x0000#16 = 0),
      (by decide : (decodedExp 0x0000#16).toInt = -25), (pinsValue_decoded hp).trans packedValue_zero⟩
  · have hexp : expOf p = 0 := by
      rw [expOf]
      omega
    exact exec_dec_shows_formula (by omega) (by omega) (by rw [hexp]; rfl) s
  · have hexp : expOf p = 31 := by
      rw [expOf]
      omega
    obtain ⟨t, ht, hok, hpins⟩ :=
      exec_dec_shows_formula (p := p) (k := (16 : ℕ)) (by omega) (by omega) (by rw [hexp]; rfl) s
    rw [zpow_natCast] at hpins
    obtain ⟨hge, hle⟩ := largest_exponent_value_bounds (mantOf_lt p)
    exact ⟨t, ht, hok, hpins, hpins ▸ hge, hpins ▸ hle⟩

end Sys2Proof.Machine
end

section
/-! SUPPORT. The multiplier's product and its carry (R163 to R166): symmetric in the operands, and normalised by a shift of 10
or 11. -/

namespace Sys2Proof.Safety

open Sys2Proof.Machine

theorem carries_eq_true_iff (a b : Packed) : carries a b = true ↔ 2097152 ≤ productOf a b := decide_eq_true_iff

theorem productOf_bounds (a b : Packed) : 1048576 ≤ productOf a b ∧ productOf a b ≤ 4190209 := by
  rw [productOf_eq]
  exact rawProduct_bounds a b

theorem productOf_comm (a b : Packed) : productOf a b = productOf b a := Nat.mul_comm _ _

theorem carries_comm (a b : Packed) : carries a b = carries b a := by
  rw [carries, productOf_comm, carries]

theorem exponentOf_comm (a b : Packed) : exponentOf a b = exponentOf b a := by
  rw [exponentOf, exponentOf, carries_comm, Int.add_comm (expOf a)]

theorem mantissaOf_comm (a b : Packed) : mantissaOf a b = mantissaOf b a := by
  rw [mantissaOf, productOf_comm, carries_comm, mantissaOf]

/-- How far the product is shifted down to a significand of 11 bits (R166). -/
def productShift (a b : Packed) : Nat := if carries a b then 11 else 10

theorem exponentOf_eq_productShift (a b : Packed) :
    exponentOf a b = (expOf a : Int) + expOf b + productShift a b - 25 := by
  rw [exponentOf, productShift]
  split <;> omega

theorem shiftedProduct_bounds (a b : Packed) :
    1024 ≤ productOf a b / 2 ^ productShift a b ∧ productOf a b / 2 ^ productShift a b ≤ 2047 := by
  obtain ⟨hlow, hhigh⟩ := productOf_bounds a b
  simp only [productShift, carries_eq_true_iff]
  split <;> omega

/-- The result's significand is the shifted product: its hidden bit is the product's highest set bit. -/
theorem hiddenBit_add_mantissaOf (a b : Packed) : 1024 + mantissaOf a b = productOf a b / 2 ^ productShift a b := by
  obtain ⟨hlow, hhigh⟩ := shiftedProduct_bounds a b
  have hmant : mantissaOf a b = productOf a b / 2 ^ productShift a b % 1024 := by
    rw [mantissaOf, productShift]
    split <;> rfl
  omega

end Sys2Proof.Safety

namespace Sys2Proof.Machine

open Sys2Proof.Safety

/-- Settles O19: the detector's answer on the machine's product, which is the product of the significands. -/
theorem productIndexIsTwentyOrTwentyOne : Obligations.ProductIndexIsTwentyOrTwentyOne := by
  intro a b
  obtain ⟨hlow, hhigh⟩ := rawProduct_bounds a b
  have hindex := product_index a b
  simp only [← productOf_eq, ← carries_eq_true_iff] at hindex
  rw [productOf_eq] at hindex
  exact ⟨hlow, hhigh, (productOf_eq a b).symm, hindex⟩

end Sys2Proof.Machine
end

section
/-! SUPPORT. What MUL answers, by the exponent of the product (R161, R168, R174), and that it commutes (R171). -/

namespace Sys2Proof.Machine

open Sys2Proof.Safety

/-- Settles O30: by whether the exponent of the product fits the field, and by bit 15 of the operands. -/
theorem mulGivesTheTruncatedProduct : Obligations.MulGivesTheTruncatedProduct := by
  refine ⟨fun a b s ha hb h0 h31 => ?_, fun a b s ha hb hr => ⟨_, exec_mul_out_of_range ha hb hr s, rfl⟩,
    fun _ _ s h => exec_mul_of_bit15 h s⟩
  obtain ⟨p, hp, -, hlt, hexp, hmant⟩ := exec_mul_in_range ha hb h0 h31 s
  exact ⟨_, hp, rfl, rfl, rfl, rfl, hlt, hexp, hmant⟩

theorem exec_mul_rangeError_iff {a b : Packed} {s t : State} (ht : exec (.mul a b) s = .next t) :
    t.outputs.err = 0b10#2 ↔ exponentOf a b < 0 ∨ 31 < exponentOf a b := by
  obtain ⟨-, -, hrule⟩ := exec_mul_meetsRule ht
  split at hrule
  case isTrue hr => exact iff_of_true hrule hr
  case isFalse hr =>
    obtain ⟨hok, -⟩ := hrule
    exact iff_of_false (by rw [hok]; decide) hr

theorem overflow_iff (a b : Packed) :
    31 < exponentOf a b ↔ 47 ≤ expOf a + expOf b ∨ expOf a + expOf b = 46 ∧ carries a b = true := by
  rw [exponentOf]
  cases carries a b <;> simp <;> omega

theorem underflow_iff (a b : Packed) :
    exponentOf a b < 0 ↔ expOf a + expOf b ≤ 13 ∨ expOf a + expOf b = 14 ∧ carries a b = false := by
  rw [exponentOf]
  cases carries a b <;> simp <;> omega

theorem State.readOutcome_of_rangeError {s : State} (h : s.outputs.err = 0b10#2) :
    s.readOutcome = .ok (.err .rangeError) := by
  simp [State.readOutcome, h, errOk, ErrorKind.code]

/-- Settles O31: the code on `err` is that of the exponent outside the field, which is a bound on the sum of the fields. -/
theorem mulRangeErrorBySumOfExponents : Obligations.MulRangeErrorBySumOfExponents := by
  refine ⟨fun a b s ha hb => ?_, fun s => ?_⟩
  · obtain ⟨t, ht⟩ := exec_mul_answers ha hb s
    refine ⟨t, ht, overflow_iff a b, underflow_iff a b, ?_, State.readOutcome_of_rangeError⟩
    rw [exec_mul_rangeError_iff ht, or_comm, overflow_iff, underflow_iff, or_assoc]
  · have hover : 31 < exponentOf 0x7BFF#16 0x7BFF#16 := by decide
    exact ⟨_, exec_mul_out_of_range (by decide) (by decide) (.inr hover) s, rfl⟩

theorem requireBit15Clear_comm {α : Type} (p q : Packed) (k : OpOutcome α) :
    requireBit15Clear p (requireBit15Clear q k) = requireBit15Clear q (requireBit15Clear p k) := by
  cases hp : bit15 p <;> cases hq : bit15 q <;> simp [hp, hq]

theorem rawProduct_comm (a b : Packed) : rawProduct a b = rawProduct b a := Nat.mul_comm _ _

theorem rawExponent_comm (a b : Packed) : rawExponent a b = rawExponent b a := by
  rw [rawExponent, Int.add_comm, rawExponent]

theorem finalExponent_comm (a b : Packed) (topBit : Nat) : finalExponent a b topBit = finalExponent b a topBit := by
  rw [finalExponent, rawExponent_comm, finalExponent]

theorem multiplyFields_comm (a b : Packed) : multiplyFields a b = multiplyFields b a := by
  funext idx
  rw [multiplyFields, finalExponent_comm, rawProduct_comm, multiplyFields]

theorem multiply_comm (a b : Packed) : multiply a b = multiply b a := by
  rw [multiply, requireBit15Clear_comm, rawProduct_comm, multiplyFields_comm, multiply]

/-- Settles O32: each step of the multiplier is symmetric, and the pins show its outcome. -/
theorem mulCommutes : Obligations.MulCommutes := by
  intro a b s
  refine ⟨multiply_comm a b, ?_⟩
  rw [observedOutcome_exec_mul, observedOutcome_exec_mul, multiply_comm]

end Sys2Proof.Machine
end

section
/-! SUPPORT. MUL by a pattern whose mantissa field is 0, a power of two: the other mantissa stays, and only the exponent
moves. 1 and the zero pattern, which enters like any other, are of this kind (R169, R170, R173). -/

namespace Sys2Proof.Safety

theorem carries_of_mantOf_zero {a b : Packed} (h : mantOf a = 0) : carries a b = false := by
  have hb := mantOf_lt b
  rw [← Bool.not_eq_true, carries_eq_true_iff, productOf, h]
  omega

theorem exponentOf_of_mantOf_zero {a b : Packed} (h : mantOf a = 0) :
    exponentOf a b = (expOf a : Int) + expOf b - 15 := by
  simp [exponentOf, carries_of_mantOf_zero h]

theorem mantissaOf_of_mantOf_zero {a b : Packed} (h : mantOf a = 0) : mantissaOf a b = mantOf b := by
  have hb := mantOf_lt b
  rw [mantissaOf, carries_of_mantOf_zero h, productOf, h, if_neg Bool.false_ne_true]
  omega

theorem eq_of_fields_eq {p q : Packed} (hp : p.toNat < 32768) (hq : q.toNat < 32768) (hexp : expOf p = expOf q)
    (hmant : mantOf p = mantOf q) : p = q := by
  apply BitVec.eq_of_toNat_eq
  rw [admitted_toNat hp, admitted_toNat hq, hexp, hmant]

end Sys2Proof.Safety

namespace Sys2Proof.Machine

open Sys2Proof.Safety

/-- The pattern of a product whose exponent and mantissa are those of an admitted pattern `p`. -/
theorem exec_mul_of_fields {a b p : Packed} (ha : a.toNat < 32768) (hb : b.toNat < 32768) (hp : p.toNat < 32768)
    (hexp : exponentOf a b = expOf p) (hmant : mantissaOf a b = mantOf p) (s : State) :
    exec (.mul a b) s = .next (s.afterOk (.mul a b) (driveRes p)) := by
  have hlt := expOf_lt p
  obtain ⟨q, hq, -, hqlt, hqexp, hqmant⟩ := exec_mul_in_range ha hb (by omega) (by omega) s
  obtain rfl : q = p := eq_of_fields_eq hqlt hp (by omega) (by omega)
  exact hq

theorem exec_mul_one {x : Packed} (hx : x.toNat < 32768) (s : State) :
    exec (.mul x 0x3C00#16) s = .next (s.afterOk (.mul x 0x3C00#16) (driveRes x)) := by
  have hmant : mantOf 0x3C00#16 = 0 := rfl
  have hexp : expOf 0x3C00#16 = 15 := rfl
  apply exec_mul_of_fields hx (by decide) hx
  · rw [exponentOf_comm, exponentOf_of_mantOf_zero hmant, hexp]
    omega
  · rw [mantissaOf_comm, mantissaOf_of_mantOf_zero hmant]

theorem exec_enc_one (s : State) : exec (.enc 1) s = .next (s.afterOk (.enc 1) (driveRes 0x3C00#16)) :=
  congrArg ((s.present (.enc 1)).deliver driveRes) (show encodeValue 1 = .ok 0x3C00#16 by decide)

/-- Settles O34: `0x3C00` has the mantissa field 0 and the exponent field 15, which the bias takes off again. -/
theorem mulByOneIsTheIdentity : Obligations.MulByOneIsTheIdentity :=
  ⟨fun _ s hx => ⟨_, exec_mul_one hx s, rfl, rfl⟩, fun s => ⟨_, exec_enc_one s, rfl, rfl⟩⟩

theorem exponentOf_zero_pattern (x : Packed) : exponentOf 0x0000#16 x = (expOf x : Int) - 15 := by
  rw [exponentOf_of_mantOf_zero rfl, show expOf 0x0000#16 = 0 from rfl]
  omega

theorem exec_mul_zero_pattern_of_ge {x : Packed} (hx : x.toNat < 32768) (h : 15 ≤ expOf x) (s : State) :
    ∃ t, exec (.mul 0x0000#16 x) s = .next t ∧ t.outputs.err = 0b00#2 ∧ expOf t.outputs.res = expOf x - 15 ∧
      mantOf t.outputs.res = mantOf x ∧ t.outputs.res.toNat < 32768 := by
  have hlt := expOf_lt x
  have hexp := exponentOf_zero_pattern x
  obtain ⟨p, hp, -, hplt, hpexp, hpmant⟩ :=
    exec_mul_in_range (a := 0x0000#16) (b := x) (by decide) hx (by omega) (by omega) s
  rw [mantissaOf_of_mantOf_zero rfl] at hpmant
  exact ⟨_, hp, rfl, (by omega : expOf p = expOf x - 15), hpmant, hplt⟩

theorem exec_mul_zero_pattern_of_lt {x : Packed} (hx : x.toNat < 32768) (h : expOf x < 15) (s : State) :
    ∃ t, exec (.mul 0x0000#16 x) s = .next t ∧ t.outputs.err = 0b10#2 := by
  have hexp := exponentOf_zero_pattern x
  exact ⟨_, exec_mul_out_of_range (by decide) hx (.inl (by omega)) s, rfl⟩

theorem ne_zero_pattern_of_expOf {p : Packed} (h : 0 < expOf p) : p ≠ 0x0000#16 := by
  rintro rfl
  exact absurd h (by decide)

/-- The encoding of 2 or more has an exponent field above 15. -/
theorem exec_enc_of_two_le {n : IntWord} (h2 : 2 ≤ n.toNat) (h : n.toNat < 65536) (s : State) :
    ∃ t, exec (.enc n) s = .next t ∧ t.outputs.err = 0b00#2 ∧ t.outputs.res.toNat < 32768 ∧ 16 ≤ expOf t.outputs.res := by
  obtain ⟨p, msb, hp, hlt, -, -, hhigh, hexp, -⟩ := exec_enc_of_small (by omega) h s
  have hmsb : msb ≠ 0 := by
    rintro rfl
    omega
  exact ⟨_, hp, rfl, hlt, (by omega : 16 ≤ expOf p)⟩

/-- Settles O35: the zero pattern has exponent and mantissa field 0, so the exponent field of the other operand goes down by
the bias; that of 2 and above does not reach 0. -/
theorem mulByTheZeroPatternIsNotZero : Obligations.MulByTheZeroPatternIsNotZero := by
  refine ⟨fun _ s hx h => exec_mul_zero_pattern_of_ge hx h s, fun _ s hx h => exec_mul_zero_pattern_of_lt hx h s,
    fun n s h2 h => ?_, exec_mul_zero_pattern_of_lt (by decide) (by decide)⟩
  obtain ⟨t, ht, hok, hlt, hexp⟩ := exec_enc_of_two_le h2 (Nat.lt_succ_of_le h) s
  obtain ⟨u, hu, hok', hexp', -⟩ := exec_mul_zero_pattern_of_ge hlt (by omega) t
  exact ⟨t, u, ht, hok, hu, hok', ne_zero_pattern_of_expOf (by omega)⟩

theorem exec_mul_of_zero_fields {a b : Packed} (ha : a.toNat < 32768) (hb : b.toNat < 32768)
    (hexp : exponentOf a b = 0) (hmant : mantissaOf a b = 0) (s : State) :
    exec (.mul a b) s = .next (s.afterOk (.mul a b) (driveRes 0x0000#16)) :=
  exec_mul_of_fields (p := 0x0000#16) ha hb (by decide) hexp hmant s

/-- The values of the worked case of R170, `2^-7` and `2^-8`. -/
theorem packedValue_2000 : packedValue 0x2000#16 = 2 ^ (-7 : ℤ) := by
  rw [packedValue_of_ne_zero (by decide) (by decide), show mantOf 0x2000#16 = 0 from rfl,
    show expOf 0x2000#16 = 8 from rfl]
  norm_num

theorem packedValue_1C00 : packedValue 0x1C00#16 = 2 ^ (-8 : ℤ) := by
  rw [packedValue_of_ne_zero (by decide) (by decide), show mantOf 0x1C00#16 = 0 from rfl,
    show expOf 0x1C00#16 = 7 from rfl]
  norm_num

/-- Settles O36: the two fields 0 are the zero pattern, which DEC shows as 0. -/
theorem mulResultMayReadAsZero : Obligations.MulResultMayReadAsZero := by
  refine ⟨fun a b s ha hb hexp hmant => ?_, ?_, fun s => ?_⟩
  · obtain ⟨u, hu, -, hpins⟩ :=
      exec_dec_shows_packedValue (p := 0x0000#16) (by decide) (s.afterOk (.mul a b) (driveRes 0x0000#16))
    exact ⟨_, u, exec_mul_of_zero_fields ha hb hexp hmant s, rfl, rfl, hu, hpins.trans packedValue_zero⟩
  · rw [packedValue_2000, packedValue_1C00, ← zpow_add₀ two_ne_zero]
    rfl
  · exact ⟨_, exec_mul_of_zero_fields (by decide) (by decide) (by decide) (by decide) s, rfl, rfl⟩

end Sys2Proof.Machine
end

section
/-! SUPPORT. The value of a product: the exact product with the bits below its eleventh significant one dropped (R172). -/

namespace Sys2Proof.Machine

open Sys2Proof.Safety

/-- Of the numbers of 11 significant bits, the one that `x` lies within one unit above is the largest below `x`: one with a
higher power of two is above `x`, and one with a lower power is below `1024 * 2^j`. -/
theorem isTrunc11_of_bracket {x : ℚ} {k : ℕ} {j : ℤ} (hk : 1024 ≤ k) (hk' : k ≤ 2047) (hlow : (k : ℚ) * 2 ^ j ≤ x)
    (hhigh : x < ((k + 1 : ℕ) : ℚ) * 2 ^ j) : IsTrunc11 x ((k : ℚ) * 2 ^ j) := by
  refine ⟨⟨hlow, k, j, hk, hk', rfl⟩, ?_⟩
  rintro y ⟨hyx, m, i, hm, hm', rfl⟩
  have hlt : (m : ℚ) * 2 ^ i < ((k + 1 : ℕ) : ℚ) * 2 ^ j := hyx.trans_lt hhigh
  obtain hij | rfl | hij := lt_trichotomy i j
  · have hstep : (2 : ℚ) * 2 ^ i ≤ 2 ^ j := by
      rw [← zpow_one_add₀ two_ne_zero]
      exact zpow_le_zpow_right₀ one_le_two (by omega)
    have hmq : (m : ℚ) ≤ 1024 * 2 := by exact_mod_cast (by omega : m ≤ 1024 * 2)
    have hkq : (1024 : ℚ) ≤ k := by exact_mod_cast hk
    calc (m : ℚ) * 2 ^ i ≤ 1024 * 2 * 2 ^ i := by gcongr
      _ = 1024 * (2 * 2 ^ i) := mul_assoc _ _ _
      _ ≤ k * 2 ^ j := by gcongr
  · have hmk : m < k + 1 := by exact_mod_cast lt_of_mul_lt_mul_right hlt (by positivity)
    gcongr
    exact Nat.lt_succ_iff.1 hmk
  · have hstep : (2 : ℚ) * 2 ^ j ≤ 2 ^ i := by
      rw [← zpow_one_add₀ two_ne_zero]
      exact zpow_le_zpow_right₀ one_le_two (by omega)
    have hmq : (1024 : ℚ) ≤ m := by exact_mod_cast hm
    have hkq : ((k + 1 : ℕ) : ℚ) ≤ 1024 * 2 := by exact_mod_cast (by omega : k + 1 ≤ 1024 * 2)
    refine absurd hlt (not_lt.2 ?_)
    calc ((k + 1 : ℕ) : ℚ) * 2 ^ j ≤ 1024 * 2 * 2 ^ j := by gcongr
      _ = 1024 * (2 * 2 ^ j) := mul_assoc _ _ _
      _ ≤ m * 2 ^ i := by gcongr

/-- A unit is at most `2^-10` of a number of 11 significant bits. -/
theorem sub_lt_of_bracket {x : ℚ} {k : ℕ} {j : ℤ} (hk : 1024 ≤ k) (hhigh : x < ((k + 1 : ℕ) : ℚ) * 2 ^ j) :
    x - (k : ℚ) * 2 ^ j < 1 / 2 ^ 10 * ((k : ℚ) * 2 ^ j) := by
  have hunit : (1024 : ℚ) * 2 ^ j ≤ k * 2 ^ j := by
    gcongr
    exact_mod_cast hk
  push_cast at hhigh
  linarith

theorem packedValue_mul_packedValue {a b : Packed} (ha : a.toNat < 32768) (hb : b.toNat < 32768)
    (ha0 : a ≠ 0x0000#16) (hb0 : b ≠ 0x0000#16) :
    packedValue a * packedValue b = (productOf a b : ℚ) * 2 ^ ((expOf a : ℤ) - 25 + (expOf b - 25)) := by
  rw [packedValue_of_ne_zero ha ha0, packedValue_of_ne_zero hb hb0, productOf, zpow_add₀ two_ne_zero, Nat.cast_mul,
    mul_mul_mul_comm]

/-- A number lies within one unit above what a shift keeps of it. -/
theorem shifted_bracket (n k : ℕ) (j : ℤ) :
    ((n / 2 ^ k : ℕ) : ℚ) * 2 ^ (k + j) ≤ n * 2 ^ j ∧ (n : ℚ) * 2 ^ j < ((n / 2 ^ k + 1 : ℕ) : ℚ) * 2 ^ (k + j) := by
  have hlow : ((n / 2 ^ k : ℕ) : ℚ) * 2 ^ k ≤ n := by exact_mod_cast Nat.div_mul_le_self n (2 ^ k)
  have hhigh : (n : ℚ) < ((n / 2 ^ k + 1 : ℕ) : ℚ) * 2 ^ k := by
    exact_mod_cast Nat.lt_mul_of_div_lt (Nat.lt_succ_self _) (Nat.two_pow_pos k)
  rw [zpow_add₀ two_ne_zero, zpow_natCast, ← mul_assoc, ← mul_assoc]
  exact ⟨by gcongr, by gcongr⟩

/-- OK stands for an exponent in the field, and the result has the fields of R161. -/
theorem exec_mul_fields_of_errOk {a b : Packed} {s t : State} (ht : exec (.mul a b) s = .next t)
    (hok : t.outputs.err = 0b00#2) :
    t.outputs.res.toNat < 32768 ∧ (expOf t.outputs.res : Int) = exponentOf a b ∧
      mantOf t.outputs.res = mantissaOf a b := by
  obtain ⟨ha, hb⟩ := (Instr.wf_mul_iff a b).1 (wf_of_exec_answers ht)
  have hrange : ¬(exponentOf a b < 0 ∨ 31 < exponentOf a b) := by
    rw [← exec_mul_rangeError_iff ht, hok]
    decide
  obtain ⟨hlow, hhigh⟩ := not_or.1 hrange
  obtain ⟨p, hp, -, hlt, hexp, hmant⟩ := exec_mul_in_range ha hb (not_lt.1 hlow) (not_lt.1 hhigh) s
  obtain rfl := eq_of_exec_eq_next ht hp
  exact ⟨hlt, hexp, hmant⟩

/-- The value of a result: the product shifted to 11 bits, at the place where the shift leaves it. -/
theorem exec_mul_packedValue {a b : Packed} {s t : State} (ht : exec (.mul a b) s = .next t)
    (hok : t.outputs.err = 0b00#2) (h0 : t.outputs.res ≠ 0x0000#16) :
    packedValue t.outputs.res = ((productOf a b / 2 ^ productShift a b : ℕ) : ℚ) *
      2 ^ (productShift a b + ((expOf a : ℤ) - 25 + (expOf b - 25))) := by
  obtain ⟨hlt, hexp, hmant⟩ := exec_mul_fields_of_errOk ht hok
  have hplace : (expOf t.outputs.res : ℤ) - 25 = productShift a b + ((expOf a : ℤ) - 25 + (expOf b - 25)) := by
    rw [hexp, exponentOf_eq_productShift]
    omega
  rw [packedValue_of_ne_zero hlt h0, hmant, hiddenBit_add_mantissaOf, hplace]

theorem exec_mul_truncates {a b : Packed} {s t : State} (ha0 : a ≠ 0x0000#16) (hb0 : b ≠ 0x0000#16)
    (ht : exec (.mul a b) s = .next t) (hok : t.outputs.err = 0b00#2) (h0 : t.outputs.res ≠ 0x0000#16) :
    IsTrunc11 (packedValue a * packedValue b) (packedValue t.outputs.res) ∧
      packedValue a * packedValue b - packedValue t.outputs.res < 1 / 2 ^ 10 * packedValue t.outputs.res := by
  obtain ⟨ha, hb⟩ := (Instr.wf_mul_iff a b).1 (wf_of_exec_answers ht)
  obtain ⟨hk, hk'⟩ := shiftedProduct_bounds a b
  rw [packedValue_mul_packedValue ha hb ha0 hb0, exec_mul_packedValue ht hok h0]
  obtain ⟨hlow, hhigh⟩ := shifted_bracket (productOf a b) (productShift a b) ((expOf a : ℤ) - 25 + (expOf b - 25))
  exact ⟨isTrunc11_of_bracket hk hk' hlow hhigh, sub_lt_of_bracket hk hhigh⟩

/-- A number of 11 significant bits is its own truncation. -/
theorem IsTrunc11.eq_of_mem {x y : ℚ} (h : IsTrunc11 x y) (hx : x ∈ elevenBitBelow x) : y = x :=
  le_antisymm h.1.1 (h.2 hx)

/-- An integer up to 2047 has at most 11 significant bits: shifted up to eleven, it is the `k` of R172. -/
theorem natCast_mem_elevenBitBelow {n : ℕ} (h1 : n ≠ 0) (h : n ≤ 2047) : (n : ℚ) ∈ elevenBitBelow n := by
  have hlog : Nat.log 2 n ≤ 10 := Nat.le_of_lt_succ (Nat.log_lt_of_lt_pow' (by decide) (Nat.lt_succ_of_le h))
  obtain ⟨d, hd⟩ := Nat.exists_eq_add_of_le hlog
  have hlow : 1024 ≤ n * 2 ^ d := by
    calc 1024 = 2 ^ Nat.log 2 n * 2 ^ d := by rw [← Nat.pow_add, ← hd]
      _ ≤ n * 2 ^ d := Nat.mul_le_mul_right _ (Nat.pow_log_le_self 2 h1)
  have hhigh : n * 2 ^ d < 2048 := by
    calc n * 2 ^ d < 2 ^ (Nat.log 2 n + 1) * 2 ^ d :=
          Nat.mul_lt_mul_of_pos_right (Nat.lt_pow_succ_log_self one_lt_two n) (Nat.two_pow_pos d)
      _ = 2048 := by rw [← Nat.pow_add, Nat.add_right_comm, ← hd]
  refine ⟨le_rfl, n * 2 ^ d, -d, hlow, Nat.le_of_lt_succ hhigh, ?_⟩
  rw [Nat.cast_mul, Nat.cast_pow, Nat.cast_ofNat, zpow_neg, zpow_natCast, mul_inv_cancel_right₀ (by positivity)]

/-- What the encoder makes of an integer `n` from 1 to 16: its value is exact, and the exponent field runs from 15 to 19. -/
structure EncodesUpTo16 (p : Packed) (n : ℕ) : Prop where
  admitted : p.toNat < 32768
  exponent_ge : 15 ≤ expOf p
  exponent_le : expOf p ≤ 19
  value : packedValue p = n

theorem exec_enc_upTo16 {m : IntWord} (h1 : 1 ≤ m.toNat) (h16 : m.toNat ≤ 16) (s : State) :
    ∃ t, exec (.enc m) s = .next t ∧ EncodesUpTo16 t.outputs.res m.toNat := by
  obtain ⟨p, msb, hp, hlt, -, hlow, hhigh, hexp, hmant⟩ := exec_enc_of_small h1 (by omega) s
  have hmsb : msb ≤ 4 := (Nat.pow_le_pow_iff_right one_lt_two).1 (hlow.trans h16)
  have hvalue := packedValue_encoded hlt hlow hhigh hexp hmant
  rw [dropBelowEleven_of_le (by omega)] at hvalue
  exact ⟨_, hp, hlt, (by omega : 15 ≤ expOf p), (by omega : expOf p ≤ 19), hvalue⟩

theorem EncodesUpTo16.ne_zero_pattern {p : Packed} {n : ℕ} (h : EncodesUpTo16 p n) : p ≠ 0x0000#16 :=
  ne_zero_pattern_of_expOf (Nat.lt_of_lt_of_le (by decide) h.exponent_ge)

/-- The exponent of the product of two such patterns is well inside the field. -/
theorem EncodesUpTo16.exponentOf_bounds {a b : Packed} {m n : ℕ} (ha : EncodesUpTo16 a m) (hb : EncodesUpTo16 b n) :
    0 < exponentOf a b ∧ exponentOf a b ≤ 31 := by
  have ha15 := ha.exponent_ge
  have ha19 := ha.exponent_le
  have hb15 := hb.exponent_ge
  have hb19 := hb.exponent_le
  rw [exponentOf]
  split <;> omega

/-- The exact product of two integers from 1 to 16 has at most 11 significant bits, so it is the value of the result. -/
theorem exec_mul_upTo16 {a b : Packed} {m n : ℕ} (ha : EncodesUpTo16 a m) (hb : EncodesUpTo16 b n) (h0 : m * n ≠ 0)
    (h : m * n ≤ 2047) (s : State) :
    ∃ t, exec (.mul a b) s = .next t ∧ t.outputs.err = 0b00#2 ∧ t.outputs.res.toNat < 32768 ∧
      packedValue t.outputs.res = (m : ℚ) * n := by
  obtain ⟨hpos, hle⟩ := ha.exponentOf_bounds hb
  obtain ⟨p, hp, -, hlt, hexp, -⟩ := exec_mul_in_range ha.admitted hb.admitted hpos.le hle s
  obtain ⟨htrunc, -⟩ := exec_mul_truncates ha.ne_zero_pattern hb.ne_zero_pattern hp rfl
    (ne_zero_pattern_of_expOf (p := p) (by omega))
  rw [ha.value, hb.value, ← Nat.cast_mul] at htrunc
  exact ⟨_, hp, rfl, hlt, (htrunc.eq_of_mem (natCast_mem_elevenBitBelow h0 h)).trans (Nat.cast_mul m n)⟩

/-- Settles O33: the result is the shifted product, within one unit of the exact one; a product of at most 11 significant
bits is its own truncation. -/
theorem mulTruncatesTheExactProduct : Obligations.MulTruncatesTheExactProduct := by
  refine ⟨fun a b s t _ _ ha0 hb0 ht hok h0 => ?_, fun m n s hm hm' hn hn' => ?_⟩
  · obtain ⟨htrunc, hloss⟩ := exec_mul_truncates ha0 hb0 ht hok h0
    exact ⟨htrunc, sub_nonneg.2 htrunc.1.1, hloss⟩
  · obtain ⟨t, ht, htm⟩ := exec_enc_upTo16 hm hm' s
    obtain ⟨u, hu, hun⟩ := exec_enc_upTo16 hn hn' t
    have hpos : 0 < m.toNat * n.toNat := Nat.mul_pos hm hn
    have hle : m.toNat * n.toNat ≤ 16 * 16 := Nat.mul_le_mul hm' hn'
    obtain ⟨x, hx, hok, hlt, hvalue⟩ := exec_mul_upTo16 htm hun hpos.ne' (by omega) u
    obtain ⟨y, hy, -, hpins⟩ := exec_dec_shows_packedValue hlt x
    exact ⟨t, u, x, y, ht, hu, hx, hok, hy, hpins.trans hvalue⟩

end Sys2Proof.Machine
end

section
/-! SUPPORT. The complete list of errors (R201): the code that each operation leaves on `err`, and the outcome that each
code stands for (R74). -/

namespace Sys2Proof.Machine

open Sys2Proof.Safety

/-- The code on `err` after an operation that answers, by the causes that R201 lists. -/
def causedCode : Instr → ErrCode
  | .msb v => if v = 0 then 0b01#2 else 0b00#2
  | .enc v => if 65536 ≤ v.toNat then 0b10#2 else 0b00#2
  | .dec _ => 0b00#2
  | .mul a b => if exponentOf a b < 0 ∨ 31 < exponentOf a b then 0b10#2 else 0b00#2

theorem exec_msb_err {v : IntWord} {s t : State} (h : exec (.msb v) s = .next t) :
    t.outputs.err = causedCode (.msb v) := by
  have hrule : MsbRule v t.outputs := exec_msb_meetsRule h
  by_cases hv : v = 0
  · subst hv
    exact hrule
  · have hne : v.toNat ≠ 0 := fun h0 => hv (BitVec.eq_of_toNat_eq h0)
    rw [MsbRule, if_neg hne] at hrule
    rw [causedCode, if_neg hv, hrule.1]

theorem exec_enc_err {v : IntWord} {s t : State} (h : exec (.enc v) s = .next t) :
    t.outputs.err = causedCode (.enc v) := by
  by_cases hlarge : 65536 ≤ v.toNat
  · rw [causedCode, if_pos hlarge, exec_enc_err_of_ge h hlarge]
  · rw [causedCode, if_neg hlarge, exec_enc_err_of_lt h (not_le.1 hlarge)]

theorem exec_dec_err {p : Packed} {s t : State} (h : exec (.dec p) s = .next t) :
    t.outputs.err = causedCode (.dec p) := by
  obtain ⟨-, hok, -⟩ := exec_dec_meetsRule h
  exact hok

theorem exec_mul_err {a b : Packed} {s t : State} (h : exec (.mul a b) s = .next t) :
    t.outputs.err = causedCode (.mul a b) := by
  obtain ⟨-, -, hrule⟩ := exec_mul_meetsRule h
  by_cases hr : exponentOf a b < 0 ∨ 31 < exponentOf a b
  · rw [if_pos hr] at hrule
    rw [causedCode, if_pos hr, hrule]
  · rw [if_neg hr] at hrule
    rw [causedCode, if_neg hr, hrule.1]

/-- The code depends on the operation and its operands only. -/
theorem exec_err {i : Instr} {s t : State} (h : exec i s = .next t) : t.outputs.err = causedCode i := by
  cases i with
  | msb v => exact exec_msb_err h
  | enc v => exact exec_enc_err h
  | dec p => exact exec_dec_err h
  | mul a b => exact exec_mul_err h

theorem causedCode_eq_preconditionError_iff (i : Instr) : causedCode i = 0b01#2 ↔ i = .msb 0 := by
  cases i <;> simp [causedCode, ite_eq_iff]

theorem causedCode_eq_rangeError_iff (i : Instr) :
    causedCode i = 0b10#2 ↔ (∃ v : IntWord, i = .enc v ∧ 65536 ≤ v.toNat) ∨
      ∃ a b : Packed, i = .mul a b ∧ (exponentOf a b < 0 ∨ 31 < exponentOf a b) := by
  cases i with
  | msb v => simp [causedCode, ite_eq_iff]
  | enc v => simp [causedCode]
  | dec p => simp [causedCode]
  | mul a b => simp [causedCode, or_iff_not_imp_left]

theorem causedCode_ne_reserved (i : Instr) : causedCode i ≠ 0b11#2 := by
  cases i <;> simp [causedCode, ite_eq_iff]

/-- A user reads an error off the pins exactly when its code stands on `err`. -/
theorem State.readOutcome_eq_err_iff (s : State) (k : ErrorKind) :
    s.readOutcome = .ok (.err k) ↔ s.outputs.err = k.code := by
  constructor
  · intro h
    rw [← codeShowing_readOutcome, h, codeShowing]
  · intro h
    cases k <;> simp [State.readOutcome, h, errOk, ErrorKind.code]

/-- A user reads the result off the pins exactly when OK stands on `err`. -/
theorem State.readOutcome_eq_ok_iff (s : State) :
    s.readOutcome = .ok (.ok s.definedResult) ↔ s.outputs.err = errOk := by
  refine ⟨fun h => ?_, State.readOutcome_of_errOk⟩
  rw [← codeShowing_readOutcome, h, codeShowing]

/-- Settles O11: the code on `err` is the one that the operation causes, and what is read off the pins is what the code
stands for. -/
theorem everyErrorCodeHasItsCause : Obligations.EveryErrorCodeHasItsCause := by
  intro i s t h
  refine ⟨?_, ?_, ?_, t.readOutcome_eq_err_iff .preconditionError, t.readOutcome_eq_err_iff .rangeError,
    t.readOutcome_eq_ok_iff⟩ <;> rw [exec_err h]
  · exact causedCode_eq_preconditionError_iff i
  · exact causedCode_eq_rangeError_iff i
  · exact causedCode_ne_reserved i

end Sys2Proof.Machine
end

section
/-! SUPPORT. The start of the model: the inputs that stand on the ports present MSB 0, whose one requirement is the code of
PreconditionError (R102, R231). -/

namespace Sys2Proof.Machine

open Sys2Proof.Safety

theorem decode_reset : decode State.reset.inputs = .msb 0 := decode_of_op_msb rfl

theorem msbRule_zero_iff (o : Outputs) : MsbRule 0 o ↔ o.err = ErrorKind.preconditionError.code := Iff.rfl

/-- Settles O7: of the rule for MSB 0 only the code on `err` is left, and the start has that code. -/
theorem resetPinsMeetTheRules : Obligations.ResetPinsMeetTheRules := by
  refine ⟨?_, rfl⟩
  rw [pinsMeetRules_iff, decode_reset, MeetsRule, msbRule_zero_iff]
  rfl

end Sys2Proof.Machine
end
